-- ==== Sys2Proof/Word.lean ====
section
/-! DEFINITION. Word.lean: the widths the spec gives its quantities (00_scope.md R7, R9). Everything is unsigned (R8). -/

namespace Sys2Proof

/-- A 32-bit register or bus value: `XLEN` = 32 (R7); bit 0 is the least significant (R9). -/
abbrev Word := BitVec 32

/-- A word index, `IDX_W` = 11 bits (R7, R83): an integer in [0, 2047]. -/
abbrev WordIndex := BitVec 11

/-- The bit buffer, `BUF_BITS` = 264 bits (R7, R10). Position 0 of the spec is the most significant bit. -/
abbrev BitBuf := BitVec 264

/-- A byte offset in the window of `WINDOW` = 0x100 bytes (R7, R50: 0 ≤ off < 0x100). -/
abbrev Offset := BitVec 8

/-- A byte of the entropy or of the digest (R29, R38). -/
abbrev Byte := BitVec 8

/-- A 256-bit hash result, its first bit the most significant (R7 `DIG_BITS`; 43_comparator.md R141 `d[255]`). -/
abbrev Digest := BitVec 256

end Sys2Proof
end

