-- ==== Sys2Proof/Syntax.lean ====
section
/-! DEFINITION. Syntax.lean: the five commands of 30_encoding.md R82, one constructor per row of the opcode table.
In this spec a command plays the part of an instruction (00_scope.md R1). -/

namespace Sys2Proof

/-- A legal command (R82, R89). -/
inductive Instr where
  /-- NOP (R100): do nothing. -/
  | nop
  /-- CLEAR (R101): every state element to its reset value. -/
  | clear
  /-- PUSH idx (R111): append one 11-bit word index. -/
  | push (idx : WordIndex)
  /-- SPLIT (R121): check the word count and split the buffer. -/
  | split
  /-- COMPARE (R136): compare the digest's first bits with the checksum bits. -/
  | compare
  deriving DecidableEq, Repr

end Sys2Proof
end

