-- ==== Sys2Proof/WellFormed.lean ====
section
/-! DEFINITION. WellFormed.lean: well-formed commands, and well-formed (legal) command words, the latter by the
mask-and-match map of 30_encoding.md R89, written independently of the decoder. -/

namespace Sys2Proof

/-- R83: the operand of PUSH is in 0..2047. The width of `WordIndex` already gives it: "No encoding can carry an index
out of range". -/
def Instr.wf : Instr → Bool
  | .nop => true
  | .clear => true
  | .push idx => decide (idx.toNat ≤ 2047)
  | .split => true
  | .compare => true

/-- One row of the map of R89. -/
structure OpcodeRow where
  mnemonic : String
  pattern : Word
  mask : Word
  deriving DecidableEq, Repr

/-- A word matches a row: `(v & mask) == match` (R84). -/
def OpcodeRow.fits (r : OpcodeRow) (v : Word) : Bool := v &&& r.mask == r.pattern

/-- The complete map of R89. -/
def opcodeRows : List OpcodeRow :=
  [ ⟨"NOP", 0x00000000#32, 0xFFFFFFFF#32⟩,
    ⟨"CLEAR", 0x10000000#32, 0xFFFFFFFF#32⟩,
    ⟨"PUSH", 0x20000000#32, 0xFFFFF800#32⟩,
    ⟨"SPLIT", 0x30000000#32, 0xFFFFFFFF#32⟩,
    ⟨"COMPARE", 0x40000000#32, 0xFFFFFFFF#32⟩ ]

/-- The rows a word matches. -/
def matchingRows (v : Word) : List OpcodeRow := opcodeRows.filter (fun r => r.fits v)

/-- R84: a word is legal if and only if it matches exactly one row of R89. -/
def legalWord (v : Word) : Bool := (matchingRows v).length == 1

end Sys2Proof
end

