-- ==== Sys2Proof/Decode.lean ====
section
/-! DEFINITION. Decode.lean: the decoder of 30_encoding.md R84, total on every 32-bit word, and the encoder of R81, R82. -/

namespace Sys2Proof

/-- Why a command word is illegal: the three checks of R84, in its order. Each raises CmdError(ILLEGAL) when the word is
written to CMD (R85); none stops the machine. -/
inductive IllegalWord where
  /-- OP in 0x5..0xF. -/
  | reservedOp
  /-- a bit of RSV is set. -/
  | reservedBits
  /-- IDX ≠ 0 on a command without an operand. -/
  | operandOnNone
  deriving DecidableEq, Repr

/-- What the decoder makes of a word. -/
inductive Decoded where
  | command (i : Instr)
  | illegal (why : IllegalWord)
  deriving DecidableEq, Repr

/-- `v[31:28]` (R81). -/
def opField (v : Word) : BitVec 4 := v.extractLsb' 28 4

/-- `v[27:11]` (R81). -/
def rsvField (v : Word) : BitVec 17 := v.extractLsb' 11 17

/-- `v[10:0]` (R81, R83): the operand of PUSH, not extended, scaled or shifted. -/
def idxField (v : Word) : WordIndex := v.extractLsb' 0 11

/-- R84: the legality checks in the spec's order, then the choice by OP. -/
def decode (v : Word) : Decoded :=
  if 4#4 < opField v then .illegal .reservedOp
  else if rsvField v ≠ 0#17 then .illegal .reservedBits
  else if opField v ≠ 2#4 ∧ idxField v ≠ 0#11 then .illegal .operandOnNone
  else if opField v = 0#4 then .command .nop
  else if opField v = 1#4 then .command .clear
  else if opField v = 2#4 then .command (.push (idxField v))
  else if opField v = 3#4 then .command .split
  else .command .compare

/-- The decoded command, if there is one. -/
def Decoded.toOption : Decoded → Option Instr
  | .command i => some i
  | .illegal _ => none

/-- OP of a command (R82). -/
def opOf : Instr → BitVec 4
  | .nop => 0x0#4
  | .clear => 0x1#4
  | .push _ => 0x2#4
  | .split => 0x3#4
  | .compare => 0x4#4

/-- IDX of a command: 0 for every OP but PUSH (R81). -/
def idxOf : Instr → WordIndex
  | .nop => 0#11
  | .clear => 0#11
  | .push idx => idx
  | .split => 0#11
  | .compare => 0#11

/-- The word of a command in format C32: OP, then RSV = 0, then IDX (R81). -/
def encode (i : Instr) : Word := opOf i ++ (0#17 ++ idxOf i)

/-- A word numbered as the opcode table numbers its bits, of which only the low `nbits` are given. The block's command
is one 32-bit register write, so no byte order enters (20_memory.md R52). -/
def tableWord (nbits w : Nat) : Word := BitVec.ofNat 32 (w % 2 ^ nbits)

/-- The command the decoder reads from a table word; none where the word is illegal. -/
def decodeTableWord (nbits w : Nat) : Option Instr := (decode (tableWord nbits w)).toOption

end Sys2Proof
end

