-- ==== Sys2Proof/Config.lean ====
section
/-! DEFINITION. Config.lean: the implementation parameters (00_scope.md R7) and the free values.
`BASE` and `HASH` are OPEN in R7: they are arguments of the definitions that use them (log entry 7). -/

namespace Sys2Proof.Config

/-- `IDX_W`: bits per word index. -/
def idxW : Nat := 11

/-- `NWORDS_LIST`: word-list size. -/
def nwordsList : Nat := 2048

/-- `LEGAL`: the legal word counts. -/
def legalCounts : List Nat := [12, 15, 18, 21, 24]

/-- `MAXW`: accumulator capacity in words. -/
def maxW : Nat := 24

/-- `BUF_BITS`: bit-buffer capacity. -/
def bufBits : Nat := 264

/-- `ENT(W)` (R7): evaluated only when W is in `LEGAL`, where the division is exact (R8). -/
def ent (w : Nat) : Nat := 32 * w / 3

/-- `CS(W)` (R7): evaluated only when W is in `LEGAL`, where the division is exact (R8). -/
def cs (w : Nat) : Nat := w / 3

/-- `ENT_MAX`. -/
def entMax : Nat := 256

/-- `CS_MAX`. -/
def csMax : Nat := 8

/-- `DIG_BITS`: digest width. -/
def digBits : Nat := 256

/-- `XLEN`: register and bus data width. -/
def xlen : Nat := 32

/-- `WINDOW`: bytes decoded. -/
def window : Nat := 0x100

/-- FREE VALUE (DESIGN CHOICE, log entry 6). What ENTv is in a state with SD = 1 and W outside `LEGAL`: R8 says `ENT(W)` is
evaluated only for a W in `LEGAL`, so the spec states no value there. No run reaches such a state (R30 INV3). The bound
is `ENT_MAX`. -/
opaque freeEnt : BitVec 5 → Fin 257

/-- FREE VALUE (DESIGN CHOICE, log entry 6). The same for CSv; the bound is `CS_MAX`. -/
opaque freeCs : BitVec 5 → Fin 9

end Sys2Proof.Config
end

