-- ==== Sys2Proof/Machine/State.lean ====
section
/-! DEFINITION. Machine/State.lean: the block's state (10_state.md R22), its port (20_memory.md R50) and its reset input
(70_reset_and_hazards.md R180), as plain data. -/

namespace Sys2Proof.Machine

/-- Why the machine stops. The block itself has no trap (60_exceptions.md R155): command errors and bus errors are next
states. -/
inductive Fault where
  /-- An index outside BUF: 93_implementation_defined.md I3 says that a model that finds one "must stop with a fault,
  never continue with a made-up value". Raised by PUSH alone, in a state with SD = 0 and W in 25..31, which no run from
  reset reaches (R30 INV4). Safe: no value is made up (log entry 5). -/
  | indexOutsideBuffer
  deriving DecidableEq, Repr

/-- Why the machine refuses an instruction. -/
inductive Refusal where
  /-- No meaning for the instruction yet. Raised by a refused arm of exec; no arm is refused now. Safe. -/
  | notModelled (mnemonic : String)
  deriving DecidableEq, Repr

/-- The four command errors (60_exceptions.md R150). -/
inductive CmdErr where
  | illegal
  | seq
  | overflow
  | count
  deriving DecidableEq, Repr

/-- A host access `(kind, off, size, wdata)`; `wdata` is present for writes only (R50; log entry 8). -/
inductive Request where
  | read (off : Offset) (size : Nat)
  | write (off : Offset) (size : Nat) (wdata : Word)
  deriving DecidableEq, Repr

/-- The response to one access (R50): `OK(rdata)` for a read, `OK` for a write, or `ERR`. -/
inductive Response where
  | okData (rdata : Word)
  | ok
  | err
  deriving DecidableEq, Repr

/-- What reaches the block from outside: a host access (R50), or the reset input going up or down (R180; log entry 3). -/
inductive Event where
  | access (r : Request)
  | resetAssert
  | resetRelease
  deriving DecidableEq, Repr

/-- The block's state `st`: "exactly these elements" (R22). -/
structure Block where
  /-- `BUF` (R23): position 0 is the most significant bit. -/
  buf : BitBuf
  /-- `W` (R24). -/
  w : BitVec 5
  /-- `SD` (R25). -/
  sd : Bool
  /-- `CD` (R26). -/
  cd : Bool
  /-- `E_ILL` (R27). -/
  eIll : Bool
  /-- `E_SEQ` (R27). -/
  eSeq : Bool
  /-- `E_OVF` (R27). -/
  eOvf : Bool
  /-- `E_CNT` (R27). -/
  eCnt : Bool
  /-- `LASTERR` (R28; log entry 9). -/
  lastErr : BitVec 4
  /-- `DIG[0..7]` (R29). -/
  dig : Vector Word 8
  deriving DecidableEq, Repr

/-- The values of R44: every element 0. -/
def Block.reset : Block where
  buf := 0#264
  w := 0#5
  sd := false
  cd := false
  eIll := false
  eSeq := false
  eOvf := false
  eCnt := false
  lastErr := 0#4
  dig := Vector.replicate 8 0#32

/-- The machine: the block, the level of its reset input, and the port. `pending` and `response` are the model's own
fields (log entries 1 and 2). -/
structure State where
  /-- The block's state `st` (R22). -/
  blk : Block
  /-- The reset input is asserted (R180). -/
  rst : Bool
  /-- Events that have reached the block and are not taken yet, oldest first (R50, R63). -/
  pending : List Event
  /-- The response to the most recent access; none before the first. -/
  response : Option Response
  deriving DecidableEq, Repr

/-- Right after reset (R44, R180): the block at its reset values, the reset input released, nothing on the port. -/
def State.reset : State where
  blk := Block.reset
  rst := false
  pending := []
  response := none

/-- The outcome of a step. -/
abbrev Result := Host.Outcome State Fault Refusal

end Sys2Proof.Machine
end

