-- ==== Sys2Proof/Machine/Ops.lean ====
section
/-! DEFINITION. Machine/Ops.lean: the named operations over the bit buffer and the state elements, and raising a command
error (60_exceptions.md R151), the one thing that takes the place of an exception here. Nothing returns from an error
(R156), so there is no return beside it. -/

namespace Sys2Proof.Machine

/-- `BUF⟨i⟩` (00_scope.md R10); false from position 264 on, where there is no bit. -/
def bufBit (b : BitBuf) (i : Nat) : Bool := b.getMsbD i

/-- `seg(BUF, a, n)` (R10): the unsigned integer of `BUF⟨a⟩ … BUF⟨a+n-1⟩`, the first most significant. Used only
with a + n ≤ 264. -/
def seg (b : BitBuf) (a n : Nat) : Nat := (b.toNat >>> (264 - (a + n))) % 2 ^ n

/-- `BUF⟨p + k⟩ <- idx[10 - k]` for k in 0..10 (41_bit_accumulator.md R111). Used only with p + 11 ≤ 264. -/
def writeIndex (b : BitBuf) (p : Nat) (idx : WordIndex) : BitBuf :=
  (b &&& ~~~(0x7FF#264 <<< (253 - p))) ||| (idx.setWidth 264 <<< (253 - p))

/-- The first n bits of the buffer, the rest 0. -/
def keepFirst (b : BitBuf) (n : Nat) : BitBuf := b &&& (BitVec.allOnes 264 <<< (264 - n))

/-- Register j of a bit sequence packed under R12: position 32j + k at register bit 31 - k, and 0 from position 264
on (R40). -/
def packedWord (b : BitBuf) (j : Nat) : Word := ((b.setWidth 288) <<< 24).extractLsb' (256 - 32 * j) 32

/-- `W ∈ LEGAL` (R7; 42_checksum_extractor.md R121). -/
def legalCount (w : BitVec 5) : Bool := Config.legalCounts.contains w.toNat

/-- The code of a command error (60_exceptions.md R150; 10_state.md R28). -/
def CmdErr.code : CmdErr → BitVec 4
  | .illegal => 1#4
  | .seq => 2#4
  | .overflow => 3#4
  | .count => 4#4

/-- R151 on the block: the error's own sticky flag is set and LASTERR gets its code; nothing else changes. -/
def Block.raise (b : Block) (e : CmdErr) : Block :=
  match e with
  | .illegal => { b with eIll := true, lastErr := CmdErr.code .illegal }
  | .seq => { b with eSeq := true, lastErr := CmdErr.code .seq }
  | .overflow => { b with eOvf := true, lastErr := CmdErr.code .overflow }
  | .count => { b with eCnt := true, lastErr := CmdErr.code .count }

/-- The success branch of R111: the index is appended at position 11·W and W is incremented. -/
def Block.append (b : Block) (idx : WordIndex) : Block :=
  { b with buf := writeIndex b.buf (11 * b.w.toNat) idx, w := b.w + 1#5 }

/-- `st.SD <- 1` (R121). -/
def Block.seal (b : Block) : Block := { b with sd := true }

/-- `st.CD <- 1` (R136). -/
def Block.markCompared (b : Block) : Block := { b with cd := true }

/-- R60: `st.DIG[j] <- v; st.CD <- 0`. -/
def Block.writeDigest (b : Block) (j : Fin 8) (v : Word) : Block :=
  { b with dig := b.dig.set j v, cd := false }

/-- The state with another block state; the port and the reset input stay. -/
def State.setBlk (s : State) (b : Block) : State := { s with blk := b }

/-- The state after its access got response r. -/
def State.respond (s : State) (r : Response) : State := { s with response := some r }

/-- `raise CmdError(code)` (R151): the command ends; it is a status report, not a trap, and the machine goes on. -/
def cmdError (e : CmdErr) (s : State) : Host.Outcome State Fault Refusal := .next (s.setBlk (s.blk.raise e))

/-- `raise BusError(off)` (R58, R152): ERR, and no state element changes. -/
def busError (s : State) : Host.Outcome State Fault Refusal := .next (s.respond .err)

/-- The append of R111. A position outside BUF stops with a fault (93_implementation_defined.md I3; log entry 5). -/
def appendIndex (idx : WordIndex) (s : State) : Host.Outcome State Fault Refusal :=
  if 264 < 11 * s.blk.w.toNat + 11 then .fault .indexOutsideBuffer
  else .next (s.setBlk (s.blk.append idx))

end Sys2Proof.Machine
end

