-- ==== Sys2Proof/Machine/Accumulator.lean ====
section
/-! DEFINITION. Machine/Accumulator.lean: the bit-accumulator (41_bit_accumulator.md). -/

namespace Sys2Proof.Machine

/-- PUSH idx (R111): SEQ while SD = 1 (R112), else OVERFLOW at W = 24 (R113), else the index is appended (R114). -/
def execPush (idx : WordIndex) (s : State) : Host.Outcome State Fault Refusal :=
  if s.blk.sd then cmdError .seq s
  else if s.blk.w = 24#5 then cmdError .overflow s
  else appendIndex idx s

end Sys2Proof.Machine
end

