-- ==== Sys2Proof/Machine/Comparator.lean ====
section
/-! DEFINITION. Machine/Comparator.lean: the hash-result comparator (43_comparator.md). -/

namespace Sys2Proof.Machine

/-- COMPARE (R136): SEQ while SD = 0 (R139), else CD <- 1. MATCH and EXPCS are computed at read time (10_state.md R31). -/
def execCompare (s : State) : Host.Outcome State Fault Refusal :=
  if s.blk.sd then .next (s.setBlk s.blk.markCompared) else cmdError .seq s

end Sys2Proof.Machine
end

