-- ==== Sys2Proof/Machine/Control.lean ====
section
/-! DEFINITION. Machine/Control.lean: the control commands NOP and CLEAR (40_control.md). -/

namespace Sys2Proof.Machine

/-- NOP (R100): no state change. -/
def execNop (s : State) : Host.Outcome State Fault Refusal := .next s

/-- CLEAR (R101): every state element to its reset value of R44. -/
def execClear (s : State) : Host.Outcome State Fault Refusal := .next (s.setBlk Block.reset)

end Sys2Proof.Machine
end

