-- ==== Sys2Proof/Machine/Extractor.lean ====
section
/-! DEFINITION. Machine/Extractor.lean: the checksum-bit extractor (42_checksum_extractor.md). -/

namespace Sys2Proof.Machine

/-- SPLIT (R121): COUNT if W is not legal (R122), else SD <- 1 (R123), also while SD = 1 (R124; log entry 14). What
the split exposes is computed at read time (10_state.md R31). -/
def execSplit (s : State) : Host.Outcome State Fault Refusal :=
  if legalCount s.blk.w then .next (s.setBlk s.blk.seal) else cmdError .count s

end Sys2Proof.Machine
end

