-- ==== Sys2Proof/Machine/Dispatch.lean ====
section
/-! DEFINITION. Machine/Dispatch.lean: one arm per command (30_encoding.md R84). -/

namespace Sys2Proof.Machine

def exec (i : Instr) (s : State) : Host.Outcome State Fault Refusal :=
  match i with
  | .nop => Sys2Proof.Machine.execNop s
  | .clear => Sys2Proof.Machine.execClear s
  | .push idx => Sys2Proof.Machine.execPush idx s
  | .split => Sys2Proof.Machine.execSplit s
  | .compare => Sys2Proof.Machine.execCompare s

end Sys2Proof.Machine
end

