-- ==== Sys2Proof/Machine/Flags.lean ====
section
/-! DEFINITION. Machine/Flags.lean: the values computed from the state (10_state.md R31), and STATUS (R34, R42). They are
not stored: each read evaluates them afresh. -/

namespace Sys2Proof.Machine

/-- `LEN = 11 · W`. -/
def lenV (b : Block) : Nat := 11 * b.w.toNat

/-- `ENTv`: `32·W/3` if SD = 1, else 0. `ENT(W)` is evaluated only for a legal W (00_scope.md R8); a sealed illegal count,
which no run reaches, gives a free value (log entry 6). -/
def entV (b : Block) : Nat :=
  if b.sd then (if legalCount b.w then Config.ent b.w.toNat else (Config.freeEnt b.w).val) else 0

/-- `CSv`: `W/3` if SD = 1, else 0, with the same reading of R8. -/
def csV (b : Block) : Nat :=
  if b.sd then (if legalCount b.w then Config.cs b.w.toNat else (Config.freeCs b.w).val) else 0

/-- `CSV`: `seg(BUF, ENTv, CSv)` if SD = 1, else 0. -/
def csValue (b : Block) : BitVec 8 :=
  if b.sd then BitVec.ofNat 8 (seg b.buf (entV b) (csV b)) else 0#8

/-- `EXPCS`: `DIG[0][31 : 32 - CSv]`, zero-extended to 8 bits, if CD = 1, else 0. For CSv = 0 the field is empty and its
value 0 (log entry 10). -/
def expCs (b : Block) : BitVec 8 :=
  if b.cd then BitVec.ofNat 8 (b.dig[0].toNat >>> (32 - csV b)) else 0#8

/-- `MATCH`: 1 if CD = 1 and EXPCS = CSV, else 0. -/
def matchV (b : Block) : Bool := b.cd && (expCs b == csValue b)

/-- STATUS (R34), from bit 31 down: 31:12 zero, LASTERR, E_CNT, E_OVF, E_SEQ, E_ILL, bit 3 zero, MATCH, CD, SD. -/
def statusWord (b : Block) : Word :=
  0#20 ++ b.lastErr ++ BitVec.ofBool b.eCnt ++ BitVec.ofBool b.eOvf ++ BitVec.ofBool b.eSeq ++ BitVec.ofBool b.eIll
    ++ 0#1 ++ BitVec.ofBool (matchV b) ++ BitVec.ofBool b.cd ++ BitVec.ofBool b.sd

end Sys2Proof.Machine
end

