-- ==== Sys2Proof/Machine/Operands.lean ====
section
/-! DEFINITION. Machine/Operands.lean: what an access names, the registers of the window and their offsets
(10_state.md R32). A command's one operand is IDX (30_encoding.md R83), which the decoder hands over. -/

namespace Sys2Proof.Machine

/-- A register of R32. -/
inductive Reg where
  | cmd
  | status
  | wcount
  | params
  | csbits
  | entW (j : Fin 8)
  | digestW (j : Fin 8)
  | accW (j : Fin 9)
  deriving DecidableEq, Repr

/-- The offset of a register (R32). -/
def Reg.offset : Reg → Offset
  | .cmd => 0x00#8
  | .status => 0x04#8
  | .wcount => 0x08#8
  | .params => 0x0C#8
  | .csbits => 0x10#8
  | .entW j => BitVec.ofNat 8 (0x20 + 4 * j.val)
  | .digestW j => BitVec.ofNat 8 (0x40 + 4 * j.val)
  | .accW j => BitVec.ofNat 8 (0x60 + 4 * j.val)

/-- Every register of R32, in the order of its offsets. -/
def Reg.all : List Reg :=
  [.cmd, .status, .wcount, .params, .csbits]
    ++ [0, 1, 2, 3, 4, 5, 6, 7].map Reg.entW ++ [0, 1, 2, 3, 4, 5, 6, 7].map Reg.digestW
    ++ [0, 1, 2, 3, 4, 5, 6, 7, 8].map Reg.accW

/-- The register at an offset: none where the offset is misaligned or reserved (R32, R53). All 8 offset bits are
decoded (R51). -/
def regAt (off : Offset) : Option Reg :=
  let n := off.toNat
  if n % 4 ≠ 0 then none
  else if n = 0x00 then some .cmd
  else if n = 0x04 then some .status
  else if n = 0x08 then some .wcount
  else if n = 0x0C then some .params
  else if n = 0x10 then some .csbits
  else if n < 0x20 then none
  else if n < 0x40 then some (.entW (Fin.ofNat 8 ((n - 0x20) / 4)))
  else if n < 0x60 then some (.digestW (Fin.ofNat 8 ((n - 0x40) / 4)))
  else if n < 0x84 then some (.accW (Fin.ofNat 9 ((n - 0x60) / 4)))
  else none

/-- Where a host bus address falls in the window at `base` (20_memory.md R51): `off = address - BASE`; none for an
address outside, whose requests never reach the block. `base` is the OPEN parameter BASE (log entry 7). -/
def portOffset (base addr : Nat) : Option Offset :=
  if base ≤ addr ∧ addr < base + Config.window then some (BitVec.ofNat 8 (addr - base)) else none

end Sys2Proof.Machine
end

