-- ==== Sys2Proof/Machine/Registers.lean ====
section
/-! DEFINITION. Machine/Registers.lean: the value of each register (10_state.md R33 to R41). -/

namespace Sys2Proof.Machine

/-- WCOUNT (R35): LEN at 24:16, W at 4:0. -/
def wcountWord (b : Block) : Word := 0#7 ++ BitVec.ofNat 9 (lenV b) ++ 0#11 ++ b.w

/-- PARAMS (R36): CSv at 19:16, ENTv at 8:0. -/
def paramsWord (b : Block) : Word := 0#12 ++ BitVec.ofNat 4 (csV b) ++ 0#7 ++ BitVec.ofNat 9 (entV b)

/-- CSBITS (R37): EXPCS at 15:8, CSV at 7:0. -/
def csbitsWord (b : Block) : Word := 0#16 ++ expCs b ++ csValue b

/-- ENT_W[j] (R38): the entropy bits, the first ENTv bits of BUF; ENTv is 0 while SD = 0. -/
def entWord (b : Block) (j : Nat) : Word := packedWord (keepFirst b.buf (entV b)) j

/-- ACC_W[j] (R40): the raw bit buffer. -/
def accWord (b : Block) (j : Nat) : Word := packedWord b.buf j

/-- The value a register reads as; none for CMD, which holds nothing (R33). -/
def readReg (b : Block) : Reg → Option Word
  | .cmd => none
  | .status => some (statusWord b)
  | .wcount => some (wcountWord b)
  | .params => some (paramsWord b)
  | .csbits => some (csbitsWord b)
  | .entW j => some (entWord b j.val)
  | .digestW j => some b.dig[j]
  | .accW j => some (accWord b j.val)

/-- Byte m (0 first) of a register that holds packed bytes: bits [31 - 8m : 24 - 8m] (R12, R29, R38). -/
def wordByte (v : Word) (m : Nat) : Byte := v.extractLsb' (24 - 8 * m) 8

/-- Entropy byte b of R38. -/
def entropyByte (b : Block) (n : Nat) : Byte := wordByte (entWord b (n / 4)) (n % 4)

/-- Digest byte b of R29, for b < 32. -/
def digestByte (b : Block) (n : Fin 32) : Byte := wordByte b.dig[n.val / 4] (n.val % 4)

end Sys2Proof.Machine
end

