-- ==== Sys2Proof/Machine/Bus.lean ====
section
/-! DEFINITION. Machine/Bus.lean: register accesses (20_memory.md R50 to R60), `Execute(v)` (30_encoding.md R84), the reset
input (70_reset_and_hazards.md R180), and what one event does. -/

namespace Sys2Proof.Machine

/-- `Execute(v)` (R80, R84): an illegal word raises ILLEGAL before any check of a command (R85, R153). -/
def execute (v : Word) (s : State) : Host.Outcome State Fault Refusal :=
  match decode v with
  | .command i => exec i s
  | .illegal _ => cmdError .illegal s

/-- A read (R55, R58): the value of the register on the current state, which does not change. -/
def memRead (off : Offset) (size : Nat) (s : State) : Host.Outcome State Fault Refusal :=
  if size ≠ 4 then busError s
  else
    match regAt off with
    | none => busError s
    | some r =>
      match readReg s.blk r with
      | none => busError s
      | some v => .next (s.respond (.okData v))

/-- A write (R56, R58 to R60). A command error still gives OK on the bus (R59). -/
def memWrite (off : Offset) (size : Nat) (v : Word) (s : State) : Host.Outcome State Fault Refusal :=
  if size ≠ 4 then busError s
  else
    match regAt off with
    | some .cmd => execute v (s.respond .ok)
    | some (.digestW j) => .next ((s.respond .ok).setBlk (s.blk.writeDigest j v))
    | _ => busError s

/-- One host access. The block accepts none while reset is asserted: it gets ERR (R180). -/
def serve (r : Request) (s : State) : Host.Outcome State Fault Refusal :=
  if s.rst then busError s
  else
    match r with
    | .read off size => memRead off size s
    | .write off size v => memWrite off size v s

/-- The reset input goes up (R180): every state element to its value of R44. -/
def assertReset (s : State) : State := { s with blk := Block.reset, rst := true }

/-- The reset input goes down. -/
def releaseReset (s : State) : State := { s with rst := false }

/-- What one event does to the state it has been taken from. -/
def takeEvent (e : Event) (s : State) : Host.Outcome State Fault Refusal :=
  match e with
  | .access r => serve r s
  | .resetAssert => .next (assertReset s)
  | .resetRelease => .next (releaseReset s)

/-- An event put before the pending ones: the next one the block takes. -/
def State.offer (s : State) (e : Event) : State := { s with pending := e :: s.pending }

/-- The host write that executes a command word: 4 bytes to CMD (R59). -/
def cmdWrite (v : Word) : Event := .access (.write 0x00#8 4 v)

/-- A host access at a bus address, with the window at `base` (R51): a request outside the window never reaches the
block. It joins the end of the pending events. `mk` makes the request from the offset. -/
def State.busAccess (s : State) (base addr : Nat) (mk : Offset → Request) : State :=
  match portOffset base addr with
  | some off => { s with pending := s.pending ++ [.access (mk off)] }
  | none => s

end Sys2Proof.Machine
end

