-- ==== Sys2Proof/Machine/Step.lean ====
section
/-! DEFINITION. Machine/Step.lean: one step takes the oldest pending event (00_scope.md R5, R6; 20_memory.md R63). -/

namespace Sys2Proof.Machine

/-- One step. With nothing pending the block does not change (R6: no autonomous step; log entry 1). -/
def step (s : State) : Host.Outcome State Fault Refusal :=
  match s.pending with
  | [] => .next s
  | e :: rest => takeEvent e { s with pending := rest }

/-- The state whose next step is the host's write of the table word w to CMD, with the reset input released. This stands
for the host issuing the command: the block fetches nothing (10_state.md R21; log entry 4). -/
def State.withFetchWord (s : State) (nbits w : Nat) : State :=
  ({ s with rst := false } : State).offer (cmdWrite (tableWord nbits w))

end Sys2Proof.Machine
end

