-- ==== Sys2Proof/Machine/Assembler.lean ====
section
/-! DEFINITION. Machine/Assembler.lean: host access sequences in the spec's own assembler syntax (30_encoding.md R87) and the
expansion of its lines and pseudo-instructions into bus requests (R88). What the text form leaves open is log entry 11. -/

namespace Sys2Proof.Machine

/-- One line (R87, R88). A register operand stands as its offset. -/
inductive AsmLine where
  /-- `NOP`, `CLEAR`, `PUSH <idx>`, `SPLIT`, `COMPARE`. -/
  | command (i : Instr)
  /-- `WR <reg>, <value>`. -/
  | wr (off : Offset) (v : Word)
  /-- `RD <reg>`, or `RD <reg> -> <expected>`. -/
  | rd (off : Offset) (expected : Option Word)
  /-- `LOAD i_0, …, i_{n-1}`. -/
  | load (is : List WordIndex)
  /-- `SETDIG <64 hex digits>`. -/
  | setDig (d : Digest)
  /-- `READENT n`. -/
  | readEnt (n : Nat)
  deriving DecidableEq, Repr

/-- The ranges of R88: 1 ≤ n ≤ 24 for LOAD, n = 4..8 for READENT. -/
def AsmLine.wf : AsmLine → Bool
  | .command i => i.wf
  | .wr _ _ => true
  | .rd _ _ => true
  | .load is => decide (1 ≤ is.length) && decide (is.length ≤ 24)
  | .setDig _ => true
  | .readEnt n => decide (4 ≤ n) && decide (n ≤ 8)

/-- One 32-bit write. -/
def writeReq (off : Offset) (v : Word) : Request := .write off 4 v

/-- One 32-bit read. -/
def readReq (off : Offset) : Request := .read off 4

/-- One write of the command's word to CMD. -/
def commandReq (i : Instr) : Request := writeReq 0x00#8 (encode i)

/-- Digest word j of a digest: its bits 32j .. 32j+31, the first at bit 31 (R12, R88). -/
def digestWord (d : Digest) (j : Nat) : Word := d.extractLsb' (224 - 32 * j) 32

/-- The requests a line stands for, in order (R87, R88). -/
def AsmLine.expand : AsmLine → List Request
  | .command i => [commandReq i]
  | .wr off v => [writeReq off v]
  | .rd off _ => [readReq off]
  | .load is => commandReq .clear :: is.map (fun i => commandReq (.push i))
  | .setDig d => (List.range 8).map (fun j => writeReq (BitVec.ofNat 8 (0x40 + 4 * j)) (digestWord d j))
  | .readEnt n => (List.range n).map (fun j => readReq (BitVec.ofNat 8 (0x20 + 4 * j)))

/-- A token: the upper-case form of a run of characters, since mnemonics and register names are case-insensitive. -/
abbrev Token := List Char

/-- Put the token read so far (its characters reversed) before the rest. -/
def flushToken (cur : List Char) (rest : List Token) : List Token :=
  if cur.isEmpty then rest else cur.reverse :: rest

/-- The tokens of a line: blanks separate, a comma is a token, `;` starts a comment. -/
def tokens : List Char → List Char → List Token
  | [], cur => flushToken cur []
  | c :: cs, cur =>
    if c = ';' then flushToken cur []
    else if c = ' ' ∨ c = '\t' then flushToken cur (tokens cs [])
    else if c = ',' then flushToken cur ([','] :: tokens cs [])
    else tokens cs (c.toUpper :: cur)

/-- The value of a digit character, upper case. -/
def digitValue (c : Char) : Option Nat :=
  if 48 ≤ c.toNat ∧ c.toNat ≤ 57 then some (c.toNat - 48)
  else if 65 ≤ c.toNat ∧ c.toNat ≤ 70 then some (c.toNat - 55)
  else none

/-- The digits of a number in a base, most significant first, after the value read so far. -/
def digitsFrom (base acc : Nat) : List Char → Option Nat
  | [] => some acc
  | c :: cs =>
    match digitValue c with
    | some d => if d < base then digitsFrom base (acc * base + d) cs else none
    | none => none

/-- At least one digit. -/
def number (base : Nat) (cs : List Char) : Option Nat :=
  if cs.isEmpty then none else digitsFrom base 0 cs

/-- "A number is decimal, `0x` hexadecimal or `0b` binary" (R87). -/
def parseNumber : Token → Option Nat
  | '0' :: 'X' :: ds => number 16 ds
  | '0' :: 'B' :: ds => number 2 ds
  | ds => number 10 ds

/-- A number that fits n bits. -/
def parseBits (n : Nat) (t : Token) : Option (BitVec n) :=
  match parseNumber t with
  | some k => if k < 2 ^ n then some (BitVec.ofNat n k) else none
  | none => none

/-- The name of a register in R87, upper case. -/
def Reg.name : Reg → Token
  | .cmd => ['C', 'M', 'D']
  | .status => ['S', 'T', 'A', 'T', 'U', 'S']
  | .wcount => ['W', 'C', 'O', 'U', 'N', 'T']
  | .params => ['P', 'A', 'R', 'A', 'M', 'S']
  | .csbits => ['C', 'S', 'B', 'I', 'T', 'S']
  | .entW j => ['E', 'N', 'T', '_', 'W', Char.ofNat (48 + j.val)]
  | .digestW j => ['D', 'I', 'G', 'E', 'S', 'T', '_', 'W', Char.ofNat (48 + j.val)]
  | .accW j => ['A', 'C', 'C', '_', 'W', Char.ofNat (48 + j.val)]

/-- A register operand: a name of R87, or a raw offset as program P3 writes one (95_test_vectors.md; log entry 11). -/
def parseReg (t : Token) : Option Offset :=
  match Reg.all.find? (fun r => r.name == t) with
  | some r => some r.offset
  | none => parseBits 8 t

/-- Indices separated by commas: at least one. "An idx outside 0…2047 is an assembly error. It is never truncated." -/
def parseIndices : List Token → Option (List WordIndex)
  | [] => none
  | t :: rest =>
    match parseBits 11 t, rest with
    | some i, [] => some [i]
    | some i, [','] :: more => (parseIndices more).map (i :: ·)
    | _, _ => none

/-- The 64 hex digits of SETDIG. -/
def parseDigest (t : Token) : Option Digest :=
  if t.length = 64 then (number 16 t).map (BitVec.ofNat 256) else none

/-- A line from its tokens; none for an assembly error. -/
def parseTokens : List Token → Option AsmLine
  | [['N', 'O', 'P']] => some (.command .nop)
  | [['C', 'L', 'E', 'A', 'R']] => some (.command .clear)
  | [['S', 'P', 'L', 'I', 'T']] => some (.command .split)
  | [['C', 'O', 'M', 'P', 'A', 'R', 'E']] => some (.command .compare)
  | [['P', 'U', 'S', 'H'], t] => (parseBits 11 t).map (fun i => .command (.push i))
  | [['W', 'R'], r, [','], t] =>
    match parseReg r, parseBits 32 t with
    | some off, some v => some (.wr off v)
    | _, _ => none
  | [['R', 'D'], r] => (parseReg r).map (fun off => .rd off none)
  | [['R', 'D'], r, ['-', '>'], t] =>
    match parseReg r, parseBits 32 t with
    | some off, some v => some (.rd off (some v))
    | _, _ => none
  | ['L', 'O', 'A', 'D'] :: ts => (parseIndices ts).map .load
  | [['S', 'E', 'T', 'D', 'I', 'G'], t] => (parseDigest t).map .setDig
  | [['R', 'E', 'A', 'D', 'E', 'N', 'T'], t] => (parseNumber t).map .readEnt
  | _ => none

/-- Assemble a well-formed line to its requests; a line of blanks or comment stands for none. None is an assembly
error. -/
def assembleLine (cs : List Char) : Option (List Request) :=
  match tokens cs [] with
  | [] => some []
  | ts =>
    match parseTokens ts with
    | some l => if l.wf then some l.expand else none
    | none => none

end Sys2Proof.Machine
end

