-- ==== Sys2Proof/Machine/Protocol.lean ====
section
/-! DEFINITION. Machine/Protocol.lean: the host program of 20_memory.md R70 over the block's step, and the reading of its
result (00_scope.md R13; 43_comparator.md R137; 70_reset_and_hazards.md R188). The lookup and the hash are the host's
(R4), so both are arguments (log entries 7 and 12). -/

namespace Sys2Proof.Machine

/-- The source's `ValidationOutcome` as R13 maps it. `wordNotFound` arises in the host's lookup alone. -/
inductive ValidationOutcome where
  | valid
  | invalidChecksum
  | invalidWordCount
  | wordNotFound
  deriving DecidableEq, Repr

/-- R13, R137: the outcome a STATUS value stands for; none where there is no result yet. SD is bit 0, CD bit 1, MATCH
bit 2, E_CNT bit 7 (10_state.md R34). -/
def outcomeOf (status : Word) : Option ValidationOutcome :=
  if status.getLsbD 1 then some (if status.getLsbD 2 then .valid else .invalidChecksum)
  else if !status.getLsbD 0 && status.getLsbD 7 then some .invalidWordCount
  else none

/-- One host access, the next one the block takes: its response and the state after it. None if the machine stops. -/
def hostAccess (r : Request) (s : State) : Option (Response × State) :=
  match step (s.offer (.access r)) with
  | .next t => t.response.map (fun a => (a, t))
  | _ => none

/-- The host's writes, in order; none as soon as one gets ERR (log entry 12). -/
def hostWrites : List Request → State → Option State
  | [], s => some s
  | r :: rs, s =>
    match hostAccess r s with
    | some (.ok, t) => hostWrites rs t
    | _ => none

/-- One host read: the data and the state after it; none on ERR. -/
def hostRead (off : Offset) (s : State) : Option (Word × State) :=
  match hostAccess (readReq off) s with
  | some (.okData v, t) => some (v, t)
  | _ => none

/-- The host's reads, in order. -/
def hostReads : List Offset → State → Option (List Word × State)
  | [], s => some ([], s)
  | off :: offs, s =>
    match hostRead off s with
    | none => none
    | some (v, t) =>
      match hostReads offs t with
      | none => none
      | some (vs, u) => some (v :: vs, u)

/-- The four bytes of a register, byte 0 (bits [31:24]) first (R12, R38). -/
def bytesOf (v : Word) : List Byte := [wordByte v 0, wordByte v 1, wordByte v 2, wordByte v 3]

/-- Steps 6 to 10 of R70 after a successful SPLIT of n words. -/
def finishValidation (hash : List Byte → Digest) (n : Nat) (s : State) : Option (ValidationOutcome × State) := do
  let (ws, s) ← hostReads ((List.range (Config.ent n / 32)).map (fun j => BitVec.ofNat 8 (0x20 + 4 * j))) s
  let s ← hostWrites ((AsmLine.setDig (hash (ws.flatMap bytesOf))).expand ++ [commandReq .compare]) s
  let (st, s) ← hostRead 0x04#8 s
  let o ← outcomeOf st
  return (o, s)

/-- Steps 3 to 10 of R70 for the indices of a phrase: the outcome and the state the block is left in. None where the
block gives no result. -/
def validateIndices (hash : List Byte → Digest) (is : List WordIndex) (s : State) :
    Option (ValidationOutcome × State) := do
  let s ← hostWrites ((AsmLine.load is).expand ++ [commandReq .split]) s
  let (st, s) ← hostRead 0x04#8 s
  if st.getLsbD 0 then finishValidation hash is.length s
  else do
    let o ← outcomeOf st
    return (o, s)

/-- Steps 1 to 10 of R70: the token count is checked first, then every token is looked up, and only then is the block
used. -/
def validatePhrase {τ : Type} (lookup : τ → Option WordIndex) (hash : List Byte → Digest) (phrase : List τ) (s : State) :
    Option (ValidationOutcome × State) :=
  if phrase.length ∉ Config.legalCounts then some (.invalidWordCount, s)
  else
    match phrase.mapM lookup with
    | none => some (.wordNotFound, s)
    | some is => validateIndices hash is s

end Sys2Proof.Machine
end

