-- ==== Sys2Proof/Safety.lean ====
section
/-! DEFINITION. Safety.lean: the invariants of 10_state.md R30, and the source's own algorithm on lists of bits
(`pack`, `verify`; 41_bit_accumulator.md and 42_checksum_extractor.md introductions), in the terms claims use. -/

namespace Sys2Proof

open Sys2Proof.Machine

/-- LASTERR names an error whose flag is set, or is 0 with no flag set (R27, R28, R151). -/
def ErrorsAgree (b : Block) : Prop :=
  (b.lastErr = 0#4 ∧ b.eIll = false ∧ b.eSeq = false ∧ b.eOvf = false ∧ b.eCnt = false)
  ∨ (b.lastErr = 1#4 ∧ b.eIll = true) ∨ (b.lastErr = 2#4 ∧ b.eSeq = true)
  ∨ (b.lastErr = 3#4 ∧ b.eOvf = true) ∨ (b.lastErr = 4#4 ∧ b.eCnt = true)

/-- The block's invariant: INV1 to INV4 of R30, and that the error state is consistent. -/
structure BlockInv (b : Block) : Prop where
  /-- INV1. -/
  unusedZero : ∀ i, 11 * b.w.toNat ≤ i → i < 264 → bufBit b.buf i = false
  /-- INV2. -/
  comparedSealed : b.cd = true → b.sd = true
  /-- INV3. -/
  sealedLegal : b.sd = true → b.w.toNat ∈ Config.legalCounts
  /-- INV4. -/
  countBound : b.w.toNat ≤ 24
  /-- R28. -/
  errors : ErrorsAgree b

/-- The machine's invariant: the block's, and that the block holds its reset values while reset is asserted (R180). -/
structure Inv (s : State) : Prop where
  block : BlockInv s.blk
  inReset : s.rst = true → s.blk = Block.reset

/-- A 4-byte read of the register at `off` answers OK(v) and changes nothing but the response (R55). -/
def ReadsAs (s : State) (off : Nat) (v : Word) : Prop :=
  step (s.offer (.access (.read (BitVec.ofNat 8 off) 4))) = .next (s.respond (.okData v))

/-- The oldest pending event is e. -/
def Takes (s : State) (e : Event) : Prop := ∃ rest, s.pending = e :: rest

/-- The oldest pending event is the host's write of the command's word to CMD, and reset is not asserted. -/
def TakesCommand (s : State) (i : Instr) : Prop := s.rst = false ∧ Takes s (cmdWrite (encode i))

/-- The next step is a CLEAR command or the reset input going up: the only two things that clear the sticky flags. -/
def TakesClearOrReset (s : State) : Prop := TakesCommand s .clear ∨ Takes s .resetAssert

/-- The next step is a host write to a DIGEST_W register. -/
def TakesDigestWrite (s : State) : Prop :=
  s.rst = false ∧ ∃ (j : Fin 8) (v : Word), Takes s (.access (.write (BitVec.ofNat 8 (0x40 + 4 * j.val)) 4 v))

/-- The command writes of a list of commands, as events in order. -/
def commandEvents (is : List Instr) : List Event := is.map (fun i => cmdWrite (encode i))

/-- The events of a list of requests. -/
def requestEvents (rs : List Request) : List Event := rs.map Event.access

/-- `CLEAR; PUSH i_0; …; PUSH i_{n-1}` (R110). -/
def loadCommands (is : List WordIndex) : List Instr := .clear :: is.map Instr.push

/-- The bits of an index, most significant first (source §4.3). -/
def indexBits (i : WordIndex) : List Bool := (List.range 11).map (fun k => i.getMsbD k)

/-- The source's `pack`: the bits of each index in input order, with no gaps. -/
def packIndices (is : List WordIndex) : List Bool := is.flatMap indexBits

/-- The unsigned integer of a bit list, its first bit most significant. -/
def bitsToNat : List Bool → Nat
  | [] => 0
  | b :: bs => b.toNat * 2 ^ bs.length + bitsToNat bs

/-- The first n bytes of a bit list, most significant bit first (source §4.4 step 3). -/
def packBytes (bits : List Bool) (n : Nat) : List Byte :=
  (List.range n).map (fun k => BitVec.ofNat 8 (bitsToNat ((bits.drop (8 * k)).take 8)))

/-- The source's `verify` (§4.4 steps 1 to 6) on the indices of a phrase, for any hash. -/
def sourceVerify (hash : List Byte → Digest) (is : List WordIndex) : Bool :=
  let ent := 32 * is.length / 3
  let cs := is.length / 3
  let buffer := packIndices is
  let entropyBits := buffer.take ent
  let checksumBits := (buffer.drop ent).take cs
  let digest := hash (packBytes entropyBits (ent / 8))
  (List.range cs).map (fun k => digest.getMsbD k) == checksumBits

end Sys2Proof
end

