-- ==== Sys2Proof/Certificates/Slice0/Obligations.lean ====
section
/-! DEFINITION. Certificates/Slice0/Obligations.lean: the statements for the provers. -/

open Sys2Proof Sys2Proof.Machine

/-! ### Encoding -/

/-- R81 to R84: decoding the encoded command gives it back, with every index. -/
def Obligations.DecodeOfEncodeIsTheCommand : Prop :=
  ∀ i : Instr, i.wf = true → decode (encode i) = .command i

/-- R84, R89: a word that decodes to a command is that command's one encoding, so decoding drops no bit. -/
def Obligations.EncodeOfDecodedIsTheWord : Prop :=
  ∀ (v : Word) (i : Instr), decode v = .command i → encode i = v

/-- R89: a word is legal if and only if it matches one row of the map, no word matches two rows, the row names the command
(with IDX = v[10:0] for PUSH), and there are 2052 legal words. -/
def Obligations.OpcodeMapIsCompleteAndDisjoint : Prop :=
  (∀ v : Word, (∃ i, decode v = .command i) ↔ ∃ r ∈ opcodeRows, v &&& r.mask = r.pattern)
  ∧ (∀ (v : Word) (r r' : OpcodeRow), r ∈ opcodeRows → r' ∈ opcodeRows →
      v &&& r.mask = r.pattern → v &&& r'.mask = r'.pattern → r = r')
  ∧ (∀ v : Word, (decode v = .command .nop ↔ v &&& 0xFFFFFFFF#32 = 0x00000000#32)
      ∧ (decode v = .command .clear ↔ v &&& 0xFFFFFFFF#32 = 0x10000000#32)
      ∧ (decode v = .command (.push (v.extractLsb' 0 11)) ↔ v &&& 0xFFFFF800#32 = 0x20000000#32)
      ∧ (decode v = .command .split ↔ v &&& 0xFFFFFFFF#32 = 0x30000000#32)
      ∧ (decode v = .command .compare ↔ v &&& 0xFFFFFFFF#32 = 0x40000000#32))
  ∧ Set.ncard {v : Word | ∃ i, decode v = .command i} = 2052
  ∧ Set.ncard {v : Word | ¬ ∃ i, decode v = .command i} = 2 ^ 32 - 2052

/-- R90, with the three illegal words. -/
def Obligations.EncodingExamplesDecodeAsWritten : Prop :=
  decode 0x20000000#32 = .command (.push 0#11) ∧ decode 0x20000003#32 = .command (.push 3#11)
  ∧ decode 0x200007FF#32 = .command (.push 2047#11) ∧ decode 0x200003FB#32 = .command (.push 1019#11)
  ∧ decode 0x30000000#32 = .command .split ∧ decode 0x40000000#32 = .command .compare
  ∧ decode 0x10000000#32 = .command .clear
  ∧ encode (.push 0#11) = 0x20000000#32 ∧ encode (.push 3#11) = 0x20000003#32
  ∧ encode (.push 2047#11) = 0x200007FF#32 ∧ encode (.push 1019#11) = 0x200003FB#32
  ∧ encode .split = 0x30000000#32 ∧ encode .compare = 0x40000000#32 ∧ encode .clear = 0x10000000#32
  ∧ decode 0x20000800#32 = .illegal .reservedBits ∧ decode 0x30000001#32 = .illegal .operandOnNone
  ∧ decode 0x50000000#32 = .illegal .reservedOp

/-- R85: every word with a reserved OP, a reserved bit or an operand on a command without one sets E_ILL and LASTERR = 1
and changes nothing else of the block; 0xFFFFFFFF and 0x10000001 are two of them. -/
def Obligations.IllegalWordSetsOnlyIllegal : Prop :=
  (∀ (s : State) (v : Word), s.rst = false →
    (5 ≤ (v.extractLsb' 28 4).toNat ∨ v.extractLsb' 11 17 ≠ 0#17
      ∨ (v.extractLsb' 28 4 ≠ 2#4 ∧ v.extractLsb' 0 11 ≠ 0#11)) →
    step (s.offer (cmdWrite v))
      = .next { s with blk := { s.blk with eIll := true, lastErr := 1#4 }, response := some .ok })
  ∧ (∀ (s : State) (v : Word), s.rst = false → v = 0xFFFFFFFF#32 ∨ v = 0x10000001#32 →
    ∃ t, step (s.offer (cmdWrite v)) = .next t ∧ t.blk.buf = s.blk.buf ∧ t.blk.w = s.blk.w
      ∧ t.blk.sd = s.blk.sd ∧ t.blk.cd = s.blk.cd ∧ t.blk.dig = s.blk.dig)

/-! ### The step -/

/-- R59, R80: when the oldest pending event is a 4-byte write to CMD whose word decodes to a command, the step is that
command's meaning, with the write taken off the port and its OK response given; the same for a table word placed by
`withFetchWord`, the model's stand-in for the host's write (log entry 4). -/
def Obligations.StepRunsTheDecodedCommand : Prop :=
  (∀ (s : State) (rest : List Event) (v : Word) (i : Instr), s.rst = false →
    s.pending = .access (.write 0x00#8 4 v) :: rest → decode v = .command i → i.wf = true →
    step s = exec i { s with pending := rest, response := some .ok })
  ∧ (∀ (s : State) (v : Word) (i : Instr), decode v = .command i →
    step (s.withFetchWord 32 v.toNat) = exec i { s with rst := false, response := some .ok })

/-- R187: every step from a state with W ≤ 24 (R22, R30 INV4) answers a next state, an access always gets a response, and
a write that gets ERR and every read leave the block as it was. -/
def Obligations.EveryStepAnswers : Prop :=
  (∀ s : State, s.blk.w.toNat ≤ 24 → ∃ t, step s = .next t)
  ∧ (∀ (s : State) (r : Request), s.blk.w.toNat ≤ 24 → ∃ t a, step (s.offer (.access r)) = .next t
      ∧ t.response = some a ∧ t.pending = s.pending ∧ (a = .err → t.blk = s.blk)
      ∧ (∀ d, a = .okData d → t.blk = s.blk))
  ∧ ∀ (s : State) (ρ : Refusal), step s ≠ .refused ρ

/-- R6: without a host access and without the reset input the block does not change; that such a step answers a next state
is the model's choice (log entry 1). -/
def Obligations.NoAutonomousStep : Prop :=
  ∀ s : State, s.pending = [] → step s = .next s

/-! ### The commands -/

/-- R100: NOP, in every state; its encoding; every other word with OP = 0 is illegal. -/
def Obligations.NopDoesNothing : Prop :=
  (∀ s : State, exec .nop s = .next s)
  ∧ encode .nop = 0x00000000#32
  ∧ (∀ (s : State) (v : Word), s.rst = false → v.extractLsb' 28 4 = 0#4 →
      (v.extractLsb' 11 17 ≠ 0#17 ∨ v.extractLsb' 0 11 ≠ 0#11) →
      step (s.offer (cmdWrite v))
        = .next { s with blk := { s.blk with eIll := true, lastErr := 1#4 }, response := some .ok })

/-- R44, R101, R181: CLEAR, the reset input and State.reset leave the same block: every element 0 and every readable
register 0. That the reset input is an event which raises a level and keeps the pending events is the model's choice (log
entry 3). -/
def Obligations.ClearAndResetLeaveTheResetBlock : Prop :=
  (∀ s : State, exec .clear s = .next { s with blk := State.reset.blk })
  ∧ (∀ s : State, step (s.offer .resetAssert) = .next { s with blk := State.reset.blk, rst := true })
  ∧ (∀ i, i < 264 → bufBit State.reset.blk.buf i = false)
  ∧ State.reset.blk.w = 0#5 ∧ State.reset.blk.sd = false ∧ State.reset.blk.cd = false
  ∧ State.reset.blk.eIll = false ∧ State.reset.blk.eSeq = false ∧ State.reset.blk.eOvf = false
  ∧ State.reset.blk.eCnt = false ∧ State.reset.blk.lastErr = 0#4
  ∧ (∀ j : Fin 8, State.reset.blk.dig[j] = 0#32)
  ∧ (∀ r : Reg, r ≠ .cmd → readReg State.reset.blk r = some 0#32)
  ∧ encode .clear = 0x10000000#32

/-- The one stop (93_implementation_defined.md I3, log entry 5): PUSH with SD = 0 and W above 24, a count R22 does not give
and no run reaches, stops with its fault; nothing else in the machine faults. -/
def Obligations.OnlyAnIndexOutsideTheBufferStops : Prop :=
  (∀ (idx : WordIndex) (s : State), s.blk.sd = false → 24 < s.blk.w.toNat →
    exec (.push idx) s = .fault .indexOutsideBuffer)
  ∧ (∀ (s : State) (f : Fault), step s = .fault f →
    s.blk.sd = false ∧ 24 < s.blk.w.toNat ∧ ∃ idx, TakesCommand s (.push idx))

/-- R180: while reset is asserted every access gets ERR and changes nothing, and releasing it changes no element. That the
input is two events and a level is the model's choice (log entry 3). -/
def Obligations.AccessInResetGetsErr : Prop :=
  (∀ (s : State) (r : Request), s.rst = true → step (s.offer (.access r)) = .next { s with response := some .err })
  ∧ (∀ s : State, step (s.offer .resetRelease) = .next { s with rst := false })

/-- R111, R114: with SD = 0 and W < 24, whatever the error flags, PUSH completes: the eleven bits stand at 11·W … 11·W+10,
most significant first, W is one more, and every other bit of BUF and every other element is as before. -/
def Obligations.PushAppendsTheIndex : Prop :=
  ∀ (idx : WordIndex) (s : State), s.blk.sd = false → s.blk.w.toNat < 24 →
    ∃ b : Block, exec (.push idx) s = .next { s with blk := b }
      ∧ (∀ k, k ≤ 10 → bufBit b.buf (11 * s.blk.w.toNat + k) = idx.getLsbD (10 - k))
      ∧ (∀ i, i < 264 → i < 11 * s.blk.w.toNat ∨ 11 * s.blk.w.toNat + 10 < i →
          bufBit b.buf i = bufBit s.blk.buf i)
      ∧ b.w.toNat = s.blk.w.toNat + 1
      ∧ b.sd = s.blk.sd ∧ b.cd = s.blk.cd ∧ b.eIll = s.blk.eIll ∧ b.eSeq = s.blk.eSeq ∧ b.eOvf = s.blk.eOvf
      ∧ b.eCnt = s.blk.eCnt ∧ b.lastErr = s.blk.lastErr ∧ b.dig = s.blk.dig

/-- R112: PUSH while SD = 1. -/
def Obligations.PushAfterSplitIsRefused : Prop :=
  ∀ (idx : WordIndex) (s : State), s.blk.sd = true →
    exec (.push idx) s = .next { s with blk := { s.blk with eSeq := true, lastErr := 2#4 } }

/-- R113: PUSH while W = 24 and SD = 0. -/
def Obligations.PushIntoFullBufferOverflows : Prop :=
  ∀ (idx : WordIndex) (s : State), s.blk.sd = false → s.blk.w.toNat = 24 →
    exec (.push idx) s = .next { s with blk := { s.blk with eOvf := true, lastErr := 3#4 } }

/-- R121, R123: SPLIT on a legal count completes, sets SD and nothing else; then ENTv = 32·W/3 and CSv = W/3 exactly, the
checksum bits are BUF⟨ENTv⟩ … BUF⟨ENTv+CSv-1⟩ with value CSV, and the entropy bytes are the bits before them. -/
def Obligations.SplitSealsALegalCount : Prop :=
  ∀ s : State, s.blk.w.toNat ∈ [12, 15, 18, 21, 24] →
    exec .split s = .next { s with blk := { s.blk with sd := true } }
    ∧ (let b : Block := { s.blk with sd := true }
      3 * entV b = 32 * s.blk.w.toNat ∧ 3 * csV b = s.blk.w.toNat
      ∧ (∀ k, k < csV b → (csValue b).getLsbD (csV b - 1 - k) = bufBit s.blk.buf (entV b + k))
      ∧ (∀ i, csV b ≤ i → (csValue b).getLsbD i = false)
      ∧ (∀ n m, n < entV b / 8 → m < 8 → (entropyByte b n).getMsbD m = bufBit s.blk.buf (8 * n + m)))

/-- R122: SPLIT on an illegal count sets E_CNT and LASTERR = 4 and changes nothing else; where SD is 0 (and
so CD is 0, INV2), PARAMS, CSBITS and ENT_W then read 0. For SD = 1 with an illegal count, which no run reaches (INV3), the
first clause is the model's choice to follow the pseudocode of R121 (log entry 14). -/
def Obligations.SplitOnIllegalCountReportsCount : Prop :=
  ∀ s : State, s.blk.w.toNat ∉ [12, 15, 18, 21, 24] →
    exec .split s = .next { s with blk := { s.blk with eCnt := true, lastErr := 4#4 } }
    ∧ (s.blk.sd = false → s.blk.cd = false →
      let b : Block := { s.blk with eCnt := true, lastErr := 4#4 }
      b.sd = false ∧ paramsWord b = 0#32 ∧ csbitsWord b = 0#32 ∧ ∀ j, j < 8 → entWord b j = 0#32)

/-- R124: a repeated SPLIT changes nothing, CD included (the legal count is INV3, the rule's own premise). -/
def Obligations.RepeatedSplitChangesNothing : Prop :=
  ∀ s : State, s.blk.sd = true → s.blk.w.toNat ∈ [12, 15, 18, 21, 24] → exec .split s = .next s

/-- R136, R138: COMPARE while SD = 1 completes and sets CD and nothing else; MATCH is then 1 if and only if
each of the CSv checksum bits equals the digest bit of the same place; digest bits from CSv onward take no part in MATCH
or in any register but DIGEST_W. -/
def Obligations.CompareMatchesBitForBit : Prop :=
  (∀ s : State, s.blk.sd = true → exec .compare s = .next { s with blk := { s.blk with cd := true } })
  ∧ (∀ b : Block, b.cd = true →
      (matchV b = true ↔ ∀ k, k < csV b → bufBit b.buf (entV b + k) = b.dig[0].getLsbD (31 - k)))
  ∧ (∀ (b : Block) (d : Vector Word 8), (∀ k, k < csV b → d[0].getLsbD (31 - k) = b.dig[0].getLsbD (31 - k)) →
      matchV { b with dig := d } = matchV b
      ∧ ∀ r : Reg, (∀ j, r ≠ .digestW j) → readReg { b with dig := d } r = readReg b r)

/-- R139: COMPARE while SD = 0. -/
def Obligations.CompareBeforeSplitIsRefused : Prop :=
  ∀ s : State, s.blk.sd = false →
    exec .compare s = .next { s with blk := { s.blk with eSeq := true, lastErr := 2#4 } }

/-- R140: a repeated COMPARE changes nothing (SD = 1 is INV2); after a DIGEST_W write COMPARE compares against the
new DIG. -/
def Obligations.RepeatedCompareChangesNothing : Prop :=
  (∀ s : State, s.blk.cd = true → s.blk.sd = true → exec .compare s = .next s)
  ∧ (∀ (s : State) (j : Fin 8) (v : Word), s.rst = false → s.blk.sd = true →
      ∃ t u, step (s.offer (.access (.write (BitVec.ofNat 8 (0x40 + 4 * j.val)) 4 v))) = .next t ∧ t.blk.cd = false
        ∧ step (t.offer (cmdWrite (encode .compare))) = .next u
        ∧ u.blk = { s.blk with dig := s.blk.dig.set j v, cd := true })

/-- R57: NOP, CLEAR, SPLIT and COMPARE, a PUSH that raised an error, and a DIGEST_W write, issued a second time straight
after the first, leave the state as the first left it. -/
def Obligations.RepetitionIsIdempotent : Prop :=
  (∀ (i : Instr) (s t : State), i = .nop ∨ i = .clear ∨ i = .split ∨ i = .compare →
    exec i s = .next t → exec i t = .next t)
  ∧ (∀ (idx : WordIndex) (s t : State), s.blk.sd = true ∨ s.blk.w.toNat = 24 →
    exec (.push idx) s = .next t → exec (.push idx) t = .next t)
  ∧ (∀ (s t : State) (j : Fin 8) (v : Word), s.rst = false →
    step (s.offer (.access (.write (BitVec.ofNat 8 (0x40 + 4 * j.val)) 4 v))) = .next t →
    step (t.offer (.access (.write (BitVec.ofNat 8 (0x40 + 4 * j.val)) 4 v))) = .next t)
  ∧ (∀ (s t : State) (off : Offset) (size : Nat),
    step (s.offer (.access (.read off size))) = .next t →
    t.blk = s.blk ∧ step (t.offer (.access (.read off size))) = .next t)

/-- The frame of the five commands: the port and the reset input stay; only CLEAR changes DIG; only CLEAR and PUSH change
BUF and W; only CLEAR and SPLIT change SD; only CLEAR and COMPARE change CD; E_ILL is changed by CLEAR alone, E_SEQ by
CLEAR, PUSH and COMPARE, E_OVF by CLEAR and PUSH, E_CNT by CLEAR and SPLIT; and every register that shows none of them
reads as before (R42). -/
def Obligations.CommandsWriteOnlyTheirElements : Prop :=
  ∀ (i : Instr) (s t : State), exec i s = .next t →
    t.rst = s.rst ∧ t.pending = s.pending ∧ t.response = s.response
    ∧ (i ≠ .clear → t.blk.dig = s.blk.dig ∧ (∀ j, readReg t.blk (.digestW j) = readReg s.blk (.digestW j))
        ∧ t.blk.eIll = s.blk.eIll)
    ∧ (i ≠ .clear → (∀ idx, i ≠ .push idx) → t.blk.buf = s.blk.buf ∧ t.blk.w = s.blk.w ∧ t.blk.eOvf = s.blk.eOvf
        ∧ (∀ j, readReg t.blk (.accW j) = readReg s.blk (.accW j)) ∧ readReg t.blk .wcount = readReg s.blk .wcount)
    ∧ (i ≠ .clear → i ≠ .split → t.blk.sd = s.blk.sd ∧ t.blk.eCnt = s.blk.eCnt)
    ∧ (i ≠ .clear → i ≠ .compare → t.blk.cd = s.blk.cd)
    ∧ (i ≠ .clear → i ≠ .compare → (∀ idx, i ≠ .push idx) → t.blk.eSeq = s.blk.eSeq)

/-! ### Errors and the bus -/

/-- R151: a command error sets its own flag and LASTERR and changes no other element, so a set flag stays set; the write to
CMD is still answered OK, whatever its word and whatever error it raises. -/
def Obligations.CommandErrorSetsItsFlagAndCode : Prop :=
  (∀ (s t : State) (v : Word), s.rst = false → step (s.offer (cmdWrite v)) = .next t → t.response = some .ok)
  ∧ ∀ s : State,
    cmdError .illegal s = .next { s with blk := { s.blk with eIll := true, lastErr := 1#4 } }
    ∧ cmdError .seq s = .next { s with blk := { s.blk with eSeq := true, lastErr := 2#4 } }
    ∧ cmdError .overflow s = .next { s with blk := { s.blk with eOvf := true, lastErr := 3#4 } }
    ∧ cmdError .count s = .next { s with blk := { s.blk with eCnt := true, lastErr := 4#4 } }

/-- R153: the first check that applies is the one reported: a bus error before the word is looked at, ILLEGAL before any
check of a command, SEQ before OVERFLOW. -/
def Obligations.ErrorPriority : Prop :=
  (∀ (s : State) (size : Nat) (v : Word), s.rst = false → size ≠ 4 →
    step (s.offer (.access (.write 0x00#8 size v))) = .next { s with response := some .err })
  ∧ (∀ s : State, s.rst = false → step (s.offer (cmdWrite 0x20000800#32))
      = .next { s with blk := { s.blk with eIll := true, lastErr := 1#4 }, response := some .ok })
  ∧ (∀ (s : State) (idx : WordIndex), s.rst = false → s.blk.sd = true → s.blk.w = 24#5 →
      step (s.offer (cmdWrite (encode (.push idx))))
        = .next { s with blk := { s.blk with eSeq := true, lastErr := 2#4 }, response := some .ok })

/-- R58: a read gets ERR, and nothing of the block changes, exactly when (a) the size is not 4, (b) the offset is not a
multiple of 4, (c) it is reserved, or (d) it is CMD; a write exactly when (a), (b), (c), or (e) it is a read-only
register. -/
def Obligations.BusErrorsAreExactlyTheListed : Prop :=
  ∀ (s : State) (off : Offset) (size : Nat) (v : Word), s.rst = false →
    (let n := off.toNat
     let bad := size ≠ 4 ∨ n % 4 ≠ 0 ∨ (0x14 ≤ n ∧ n ≤ 0x1F) ∨ 0x84 ≤ n
     let readOnly := n = 0x04 ∨ n = 0x08 ∨ n = 0x0C ∨ n = 0x10 ∨ (0x20 ≤ n ∧ n < 0x40) ∨ (0x60 ≤ n ∧ n < 0x84)
     (bad ∨ n = 0x00 → step (s.offer (.access (.read off size))) = .next { s with response := some .err })
     ∧ (¬ (bad ∨ n = 0x00) →
        ∃ d, step (s.offer (.access (.read off size))) = .next { s with response := some (.okData d) })
     ∧ (bad ∨ readOnly → step (s.offer (.access (.write off size v))) = .next { s with response := some .err })
     ∧ (¬ (bad ∨ readOnly) →
        ∀ t, step (s.offer (.access (.write off size v))) = .next t → t.response = some .ok))

/-- R60: a write to DIGEST_W[j] stores the value and clears CD, whatever SD and CD are, and changes nothing else; then
STATUS.MATCH and CSBITS.EXPCS read 0, and (R39) the register reads back what was written. -/
def Obligations.DigestWriteStoresAndClearsCompare : Prop :=
  ∀ (s : State) (j : Fin 8) (v : Word), s.rst = false →
    ∃ t, step (s.offer (.access (.write (BitVec.ofNat 8 (0x40 + 4 * j.val)) 4 v))) = .next t
      ∧ t = { s with blk := { s.blk with dig := t.blk.dig, cd := false }, response := some .ok }
      ∧ t.blk.dig[j] = v ∧ (∀ k : Fin 8, k ≠ j → t.blk.dig[k] = s.blk.dig[k])
      ∧ (∃ st, ReadsAs t 0x04 st ∧ st.getLsbD 1 = false ∧ st.getLsbD 2 = false)
      ∧ (∃ cb, ReadsAs t 0x10 cb ∧ cb.extractLsb' 8 8 = 0#8)
      ∧ ReadsAs t (0x40 + 4 * j.val) v

/-! ### The registers

In a sealed state with an illegal count, which no run reaches (INV3), ENTv and CSv are the free values of log entry 6: the
statements hold for every value of them within the bounds ENT_MAX and CS_MAX. -/

/-- R34: STATUS, field by field. -/
def Obligations.StatusReadsItsFields : Prop :=
  ∀ s : State, s.rst = false → ∃ v, ReadsAs s 0x04 v
    ∧ v.getLsbD 0 = s.blk.sd ∧ v.getLsbD 1 = s.blk.cd ∧ v.getLsbD 2 = matchV s.blk ∧ v.getLsbD 3 = false
    ∧ v.getLsbD 4 = s.blk.eIll ∧ v.getLsbD 5 = s.blk.eSeq ∧ v.getLsbD 6 = s.blk.eOvf ∧ v.getLsbD 7 = s.blk.eCnt
    ∧ v.extractLsb' 8 4 = s.blk.lastErr ∧ v.extractLsb' 12 20 = 0#20
    ∧ (s.blk.sd = true → s.blk.cd = true → matchV s.blk = true → v.extractLsb' 0 3 = 0b111#3)
    ∧ (s.blk.sd = true → s.blk.cd = true → matchV s.blk = false → v.extractLsb' 0 3 = 0b011#3)

/-- R35: WCOUNT. -/
def Obligations.WcountReadsCountAndLength : Prop :=
  ∀ s : State, s.rst = false → ∃ v, ReadsAs s 0x08 v
    ∧ v.extractLsb' 0 5 = s.blk.w ∧ (v.extractLsb' 16 9).toNat = 11 * s.blk.w.toNat
    ∧ v.extractLsb' 5 11 = 0#11 ∧ v.extractLsb' 25 7 = 0#7

/-- R36: PARAMS: 0 while SD = 0, and the five values of a successful SPLIT. -/
def Obligations.ParamsReadsTheSizes : Prop :=
  ∀ s : State, s.rst = false → ∃ v, ReadsAs s 0x0C v
    ∧ (v.extractLsb' 0 9).toNat = entV s.blk ∧ (v.extractLsb' 16 4).toNat = csV s.blk
    ∧ v.extractLsb' 9 7 = 0#7 ∧ v.extractLsb' 20 12 = 0#12
    ∧ (s.blk.sd = false → v = 0#32)
    ∧ (s.blk.sd = true → s.blk.w.toNat = 12 → v = 0x00040080#32)
    ∧ (s.blk.sd = true → s.blk.w.toNat = 15 → v = 0x000500A0#32)
    ∧ (s.blk.sd = true → s.blk.w.toNat = 18 → v = 0x000600C0#32)
    ∧ (s.blk.sd = true → s.blk.w.toNat = 21 → v = 0x000700E0#32)
    ∧ (s.blk.sd = true → s.blk.w.toNat = 24 → v = 0x00080100#32)

/-- R37: CSBITS: the checksum bits and the expected ones, right-aligned, first bit at CSv - 1; each field is 0 while its
flag is. -/
def Obligations.CsbitsReadsBothSides : Prop :=
  ∀ s : State, s.rst = false → ∃ v, ReadsAs s 0x10 v ∧ v.extractLsb' 16 16 = 0#16
    ∧ (s.blk.sd = false → v.extractLsb' 0 8 = 0#8) ∧ (s.blk.cd = false → v.extractLsb' 8 8 = 0#8)
    ∧ (s.blk.sd = true →
        (∀ k, k < csV s.blk → v.getLsbD (csV s.blk - 1 - k) = bufBit s.blk.buf (entV s.blk + k))
        ∧ (∀ i, csV s.blk ≤ i → i < 8 → v.getLsbD i = false))
    ∧ (s.blk.cd = true →
        (∀ k, k < csV s.blk → v.getLsbD (8 + (csV s.blk - 1 - k)) = s.blk.dig[0].getLsbD (31 - k))
        ∧ (∀ i, csV s.blk ≤ i → i < 8 → v.getLsbD (8 + i) = false))

/-- R38: ENT_W[j], bit by bit; its bytes are the entropy bytes; it reads 0 above them. -/
def Obligations.EntropyRegistersReadTheEntropyBits : Prop :=
  ∀ (s : State) (j : Nat), s.rst = false → j < 8 → ∃ v, ReadsAs s (0x20 + 4 * j) v
    ∧ (∀ k, k ≤ 31 → v.getLsbD (31 - k)
        = (s.blk.sd && decide (32 * j + k < entV s.blk) && bufBit s.blk.buf (32 * j + k)))
    ∧ (s.blk.sd = true → ∀ n, n < entV s.blk / 8 → n / 4 = j →
        ∀ m, m < 8 → (v.extractLsb' (24 - 8 * (n % 4)) 8).getMsbD m = bufBit s.blk.buf (8 * n + m))
    ∧ (entV s.blk ≤ 32 * j → v = 0#32)

/-- R40: ACC_W[j], bit by bit; ACC_W[8][23:0] reads 0; under INV1 the bits from LEN on read 0; SD plays no part. -/
def Obligations.AccRegistersReadTheBuffer : Prop :=
  ∀ (s : State) (j : Nat), s.rst = false → j < 9 → ∃ v, ReadsAs s (0x60 + 4 * j) v
    ∧ (∀ k, k ≤ 31 → v.getLsbD (31 - k) = (decide (32 * j + k < 264) && bufBit s.blk.buf (32 * j + k)))
    ∧ (j = 8 → v.extractLsb' 0 24 = 0#24)
    ∧ (BlockInv s.blk → ∀ k, k ≤ 31 → 11 * s.blk.w.toNat ≤ 32 * j + k → v.getLsbD (31 - k) = false)
    ∧ (∀ d : Bool, ReadsAs { s with blk := { s.blk with sd := d } } (0x60 + 4 * j) v)

/-- R39, R29: DIGEST_W[j] reads DIG[j], and digest byte n stands in DIG[n div 4] most significant byte first. -/
def Obligations.DigestRegistersReadTheDigest : Prop :=
  (∀ (s : State) (j : Fin 8), s.rst = false → ReadsAs s (0x40 + 4 * j.val) s.blk.dig[j])
  ∧ (∀ (b : Block) (n : Fin 32) (m : Nat), m < 8 →
      (digestByte b n).getMsbD m = (b.dig[n.val / 4]).getLsbD (31 - 8 * (n.val % 4) - m))

/-! ### Invariants and whole-machine rules -/

/-- R30 at reset. -/
def Obligations.ResetMeetsTheInvariant : Prop := Inv State.reset

/-- R30: every step from every state that meets the invariant keeps it. -/
def Obligations.StepKeepsTheInvariant : Prop :=
  ∀ s t : State, Inv s → step s = .next t → Inv t

/-- R25: SD is set only by a SPLIT that passes the count check and cleared only by CLEAR and reset; while it is 1, BUF and W
cannot change. -/
def Obligations.SealIsHeldUntilClear : Prop :=
  ∀ s t : State, step s = .next t →
    (s.blk.sd = false → t.blk.sd = true → TakesCommand s .split ∧ s.blk.w.toNat ∈ [12, 15, 18, 21, 24])
    ∧ (TakesCommand s .split → s.blk.w.toNat ∈ [12, 15, 18, 21, 24] → t.blk.sd = true)
    ∧ (s.blk.sd = true → t.blk.sd = false → TakesClearOrReset s)
    ∧ (TakesClearOrReset s → t.blk.sd = false)
    ∧ (s.blk.sd = true → t.blk.sd = true → t.blk.buf = s.blk.buf ∧ t.blk.w = s.blk.w)
    ∧ (∀ idx, s.blk.sd = true → TakesCommand s (.push idx) →
        t.blk = { s.blk with eSeq := true, lastErr := 2#4 })

/-- R26: CD is set only by a COMPARE performed while SD = 1, and cleared by CLEAR, by reset and by every DIGEST_W write, by
nothing else; whenever it is 1, DIG is what COMPARE saw. -/
def Obligations.CompareResultIsNeverStale : Prop :=
  ∀ s t : State, step s = .next t →
    (s.blk.cd = false → t.blk.cd = true → TakesCommand s .compare ∧ s.blk.sd = true)
    ∧ (TakesCommand s .compare → s.blk.sd = true → t.blk.cd = true)
    ∧ (s.blk.cd = true → t.blk.cd = false → TakesClearOrReset s ∨ TakesDigestWrite s)
    ∧ (TakesClearOrReset s ∨ TakesDigestWrite s → t.blk.cd = false)
    ∧ (t.blk.cd = true → t.blk.dig = s.blk.dig)

/-- R27: the error flags are sticky: only CLEAR and reset clear them, and those clear all four. -/
def Obligations.ErrorFlagsAreSticky : Prop :=
  ∀ s t : State, step s = .next t →
    (¬ TakesClearOrReset s →
      (s.blk.eIll = true → t.blk.eIll = true) ∧ (s.blk.eSeq = true → t.blk.eSeq = true)
      ∧ (s.blk.eOvf = true → t.blk.eOvf = true) ∧ (s.blk.eCnt = true → t.blk.eCnt = true))
    ∧ (TakesClearOrReset s →
      t.blk.eIll = false ∧ t.blk.eSeq = false ∧ t.blk.eOvf = false ∧ t.blk.eCnt = false ∧ t.blk.lastErr = 0#4)

/-- R28: LASTERR changes only when a command error writes its code, together with its flag, or CLEAR or reset writes 0; so
no step makes it one of 5 … 15. -/
def Obligations.LastErrorIsTheLatestCode : Prop :=
  ∀ s t : State, step s = .next t →
    (t.blk.lastErr = s.blk.lastErr
      ∨ (TakesClearOrReset s ∧ t.blk.lastErr = 0#4)
      ∨ (s.rst = false ∧ (∃ v, Takes s (cmdWrite v)) ∧ ∃ e : CmdErr, t.blk = s.blk.raise e ∧ t.blk.lastErr = e.code))
    ∧ (s.blk.lastErr.toNat ≤ 4 → t.blk.lastErr.toNat ≤ 4)

/-- R24: W is changed only by a PUSH, which increments it and never past 24, and by CLEAR and reset, which set it to 0. -/
def Obligations.WordCountWriters : Prop :=
  ∀ s t : State, step s = .next t →
    (t.blk.w = s.blk.w
      ∨ (TakesClearOrReset s ∧ t.blk.w = 0#5)
      ∨ ((∃ idx, TakesCommand s (.push idx)) ∧ s.blk.w.toNat < 24 ∧ t.blk.w.toNat = s.blk.w.toNat + 1))
    ∧ (TakesClearOrReset s → t.blk.w = 0#5)
    ∧ (s.blk.w.toNat ≤ 24 → t.blk.w.toNat ≤ 24)

/-- R23, R29: only PUSH, CLEAR and reset change BUF; only DIGEST_W writes, CLEAR and reset change DIG. -/
def Obligations.BufferAndDigestWriters : Prop :=
  ∀ s t : State, step s = .next t →
    (t.blk.buf = s.blk.buf ∨ TakesClearOrReset s ∨ ∃ idx, TakesCommand s (.push idx))
    ∧ (t.blk.dig = s.blk.dig ∨ TakesClearOrReset s ∨ TakesDigestWrite s)

/-- R31: the values computed at read time are those SPLIT and COMPARE would have latched: no step changes ENTv, CSv, CSV or
the entropy registers while SD stays 1, or EXPCS and MATCH while CD stays 1 in a sealed block. -/
def Obligations.DerivedValuesAreAsIfLatched : Prop :=
  ∀ s t : State, step s = .next t → s.blk.sd = true → t.blk.sd = true →
    entV t.blk = entV s.blk ∧ csV t.blk = csV s.blk ∧ csValue t.blk = csValue s.blk
    ∧ (∀ j, entWord t.blk j = entWord s.blk j)
    ∧ (s.blk.cd = true → t.blk.cd = true → expCs t.blk = expCs s.blk ∧ matchV t.blk = matchV s.blk)

/-! ### Laws of command sequences, for every sequence of indices -/

/-- R110: `pack(i_0, …, i_{n-1})` is the bit string BUF⟨0⟩ … BUF⟨11n-1⟩ after CLEAR and the n PUSHes, from every state and
whatever else is pending after them. -/
def Obligations.PushSequenceIsPack : Prop :=
  ∀ (s : State) (is : List WordIndex) (rest : List Event), s.rst = false → is.length ≤ 24 →
    s.pending = commandEvents (loadCommands is) ++ rest →
    ∃ t, Host.Core.run Sys2Proof.core (is.length + 1) s = .next t ∧ t.pending = rest
      ∧ (List.range (11 * is.length)).map (bufBit t.blk.buf) = packIndices is

/-- R115: the laws of the accumulator. -/
def Obligations.AccumulatorLaws : Prop :=
  (∀ (s : State) (is : List WordIndex) (rest : List Event), s.rst = false → is.length ≤ 24 →
    s.pending = commandEvents (loadCommands is) ++ rest →
    ∃ t, Host.Core.run Sys2Proof.core (is.length + 1) s = .next t
      ∧ t.blk.w.toNat = is.length ∧ lenV t.blk = 11 * is.length
      ∧ (∀ k (h : k < is.length), seg t.blk.buf (11 * k) 11 = (is[k]).toNat)
      ∧ (∀ i, 11 * is.length ≤ i → i < 264 → bufBit t.blk.buf i = false)
      ∧ (∀ i, i < 264 → (accWord t.blk (i / 32)).getLsbD (31 - i % 32) = bufBit t.blk.buf i)
      ∧ t.blk = { Block.reset with buf := t.blk.buf, w := t.blk.w })
  ∧ (∀ (s s' t t' : State) (is is' : List WordIndex) (rest rest' : List Event), s.rst = false → s'.rst = false →
    is.length ≤ 24 → is'.length = is.length →
    s.pending = commandEvents (loadCommands is) ++ rest → s'.pending = commandEvents (loadCommands is') ++ rest' →
    Host.Core.run Sys2Proof.core (is.length + 1) s = .next t →
    Host.Core.run Sys2Proof.core (is.length + 1) s' = .next t' →
    (is = is' ↔ t.blk.buf = t'.blk.buf))

/-- R126: after a legal count is loaded and split, the checksum bits are the last CS bits of the last index, and its top
11 - CS bits are the last entropy bits. -/
def Obligations.ChecksumIsTheTailOfTheLastIndex : Prop :=
  ∀ (s : State) (is : List WordIndex) (rest : List Event) (hne : is ≠ []), s.rst = false →
    is.length ∈ [12, 15, 18, 21, 24] → s.pending = commandEvents (loadCommands is ++ [.split]) ++ rest →
    ∃ t, Host.Core.run Sys2Proof.core (is.length + 2) s = .next t ∧ t.blk.sd = true
      ∧ (csValue t.blk).toNat = (is.getLast hne).toNat % 2 ^ (is.length / 3)
      ∧ seg t.blk.buf (11 * (is.length - 1)) (11 - is.length / 3) = (is.getLast hne).toNat / 2 ^ (is.length / 3)
      ∧ 11 * (is.length - 1) + (11 - is.length / 3) = entV t.blk
      ∧ 11 * is.length - entV t.blk = csV t.blk ∧ csV t.blk = is.length / 3 ∧ csV t.blk ≤ 8

/-- R141: the law of the comparator: after LOAD, SPLIT, SETDIG d and COMPARE, MATCH is 1 if and only if the first CS bits
of the digest are the last index modulo 2^CS. -/
def Obligations.ComparatorLaw : Prop :=
  ∀ (s : State) (is : List WordIndex) (d : Digest) (rest : List Event) (hne : is ≠ []), s.rst = false →
    is.length ∈ [12, 15, 18, 21, 24] →
    s.pending = requestEvents ((AsmLine.load is).expand ++ (AsmLine.command .split).expand
      ++ (AsmLine.setDig d).expand ++ (AsmLine.command .compare).expand) ++ rest →
    ∃ t, Host.Core.run Sys2Proof.core (is.length + 11) s = .next t ∧ t.pending = rest ∧ t.blk.cd = true
      ∧ (matchV t.blk = true
          ↔ d.toNat / 2 ^ (256 - is.length / 3) = (is.getLast hne).toNat % 2 ^ (is.length / 3))

/-- R13, R70, R137: for every lookup, every hash function, every phrase and every state with reset released, the host
protocol over the block gives the source's outcome: InvalidWordCount, then WordNotFound, then what `verify` of §4.4 says
of the indices. The lookup and the hash are arguments, and the form of the host program is the model's (log entries 7, 12). -/
def Obligations.ProtocolRefinesTheSource : Prop :=
  ∀ (τ : Type) (lookup : τ → Option WordIndex) (hash : List Byte → Digest) (phrase : List τ) (s : State),
    s.rst = false → ∃ t : State, validatePhrase lookup hash phrase s = some
      (if phrase.length ∉ [12, 15, 18, 21, 24] then .invalidWordCount
       else match phrase.mapM lookup with
        | none => .wordNotFound
        | some is => if sourceVerify hash is then .valid else .invalidChecksum, t)

/-- R88: the expansions of the pseudo-instructions. -/
def Obligations.PseudoInstructionsExpandAsStated : Prop :=
  (∀ is : List WordIndex, (AsmLine.load is).expand
      = .write 0x00#8 4 0x10000000#32 :: is.map (fun i => .write 0x00#8 4 (0x20000000#32 ||| i.setWidth 32))
    ∧ (AsmLine.load is).expand.length = is.length + 1)
  ∧ (∀ d : Digest, (AsmLine.setDig d).expand.length = 8
    ∧ ∀ j, j < 8 → ∃ w : Word, (AsmLine.setDig d).expand[j]? = some (.write (BitVec.ofNat 8 (0x40 + 4 * j)) 4 w)
        ∧ ∀ k, k < 32 → w.getMsbD k = d.getMsbD (32 * j + k))
  ∧ (∀ n, (AsmLine.readEnt n).expand.length = n
    ∧ ∀ j, j < n → (AsmLine.readEnt n).expand[j]? = some (.read (BitVec.ofNat 8 (0x20 + 4 * j)) 4))
  ∧ (∀ is : List WordIndex, (AsmLine.load is).wf = true ↔ 1 ≤ is.length ∧ is.length ≤ 24)
  ∧ (∀ n, (AsmLine.readEnt n).wf = true ↔ n = 4 ∨ n = 5 ∨ n = 6 ∨ n = 7 ∨ n = 8)

/-- R51: the window decodes BASE to BASE + 0xFF, the offset is address - BASE, nothing is aliased, and a request outside
changes nothing. BASE is an argument (log entry 7). -/
def Obligations.WindowDecodesItsOffsets : Prop :=
  (∀ (base addr : Nat) (off : Offset), portOffset base addr = some off ↔ addr = base + off.toNat)
  ∧ (∀ (base addr : Nat), portOffset base addr = none ↔ addr < base ∨ base + 0xFF < addr)
  ∧ (∀ (s : State) (base addr : Nat) (mk : Offset → Request), addr < base ∨ base + 0xFF < addr →
      s.busAccess base addr mk = s)
end

