-- ==== Sys2Proof/Laws/Bits.lean ====
section
/-! SUPPORT. Laws/Bits.lean: what the operations over the bit buffer do, bit by bit. -/

namespace Sys2Proof.Machine

@[simp] theorem bufBit_zero (i : Nat) : bufBit 0#264 i = false := by simp [bufBit]

theorem bufBit_of_le (b : BitBuf) {i : Nat} (h : 264 ≤ i) : bufBit b i = false := by
  simp [bufBit, BitVec.getMsbD, Nat.not_lt.mpr h]

/-- BUF⟨i⟩ as a bit of the vector, numbered from the least significant. -/
theorem bufBit_eq_getLsbD (b : BitBuf) {i : Nat} (h : i < 264) : bufBit b i = b.getLsbD (263 - i) := by
  simp [bufBit, BitVec.getMsbD, h]

/-- Two buffers with the same bits are the same. -/
theorem buf_ext {a b : BitBuf} (h : ∀ i, i < 264 → bufBit a i = bufBit b i) : a = b :=
  BitVec.eq_of_getMsbD_eq (fun i hi => h i hi)

set_option exponentiation.threshold 300 in
/-- A shifted field of ones has ones exactly in the field. -/
theorem getLsbD_field (p : Nat) {i : Nat} (hi : i < 264) :
    (0x7FF#264 <<< p).getLsbD i = decide (p ≤ i ∧ i < p + 11) := by
  have h : (0x7FF#264) = (BitVec.allOnes 11).setWidth 264 := rfl
  rw [h]
  simp only [BitVec.getLsbD_shiftLeft, BitVec.getLsbD_setWidth, BitVec.getLsbD_allOnes]
  by_cases h1 : i < p
  · simp [h1, Nat.not_le.mpr h1]
  · have h3 : p ≤ i := Nat.not_lt.mp h1
    have h4 : i - p < 264 := by omega
    by_cases h2 : i < p + 11
    · have h5 : i - p < 11 := by omega
      simp [hi, h1, h2, h3, h4, h5]
    · have h5 : ¬ i - p < 11 := by omega
      simp [h2, h5]

/-- The bits of an index stand at p … p+10, most significant first; every other bit is as before (R111). -/
theorem bufBit_writeIndex (b : BitBuf) {p : Nat} (hp : p + 11 ≤ 264) (idx : WordIndex) {i : Nat} (hi : i < 264) :
    bufBit (writeIndex b p idx) i
      = if p ≤ i ∧ i < p + 11 then idx.getLsbD (10 - (i - p)) else bufBit b i := by
  rw [bufBit_eq_getLsbD _ hi, bufBit_eq_getLsbD _ hi, writeIndex]
  rw [BitVec.getLsbD_or, BitVec.getLsbD_and, BitVec.getLsbD_not, getLsbD_field _ (by omega : 263 - i < 264),
    BitVec.getLsbD_shiftLeft, BitVec.getLsbD_setWidth]
  by_cases h : p ≤ i ∧ i < p + 11
  · have h1 : 253 - p ≤ 263 - i ∧ 263 - i < 253 - p + 11 := by omega
    rw [decide_eq_true h1]
    have h2 : ¬ 263 - i < 253 - p := by omega
    have h3 : 263 - i - (253 - p) = 10 - (i - p) := by omega
    have h4 : 10 - (i - p) < 264 := by omega
    have h5 : 263 - i < 264 := by omega
    simp [h, h2, h3, h4, h5]
  · have h1 : ¬ (253 - p ≤ 263 - i ∧ 263 - i < 253 - p + 11) := by omega
    have h5 : 263 - i < 264 := by omega
    rw [if_neg h]
    rw [decide_eq_false h1]
    by_cases h2 : 263 - i < 253 - p
    · simp [h2, h5]
    · have h6 : 11 ≤ 263 - i - (253 - p) := by omega
      simp [h5, BitVec.getLsbD_of_ge idx _ h6]

/-- `seg` bit by bit: bit n-1-k of the number is BUF⟨a+k⟩ (R10). -/
theorem testBit_seg (b : BitBuf) {a n : Nat} (h : a + n ≤ 264) {k : Nat} (hk : k < n) :
    (seg b a n).testBit (n - 1 - k) = bufBit b (a + k) := by
  rw [bufBit_eq_getLsbD _ (by omega), seg, Nat.testBit_mod_two_pow, Nat.testBit_shiftRight, BitVec.getLsbD]
  have h1 : n - 1 - k < n := by omega
  have h2 : 264 - (a + n) + (n - 1 - k) = 263 - (a + k) := by omega
  simp [h1, h2]

theorem seg_lt (b : BitBuf) (a n : Nat) : seg b a n < 2 ^ n := Nat.mod_lt _ (Nat.two_pow_pos n)

/-- `seg(BUF, a, 0) = 0` (R10). -/
@[simp] theorem seg_zero (b : BitBuf) (a : Nat) : seg b a 0 = 0 := by simp [seg, Nat.mod_one]

theorem bufBit_keepFirst (b : BitBuf) {n : Nat} (hn : n ≤ 264) {i : Nat} (hi : i < 264) :
    bufBit (keepFirst b n) i = (decide (i < n) && bufBit b i) := by
  rw [bufBit_eq_getLsbD _ hi, bufBit_eq_getLsbD _ hi, keepFirst, BitVec.getLsbD_and, BitVec.getLsbD_shiftLeft,
    BitVec.getLsbD_allOnes]
  have h1 : 263 - i < 264 := by omega
  by_cases h : i < n
  · have h2 : ¬ 263 - i < 264 - n := by omega
    have h3 : 263 - i - (264 - n) < 264 := by omega
    simp [h, h1, h2, h3]
  · have h2 : 263 - i < 264 - n := by omega
    simp [h, h2]

/-- R12, R40: bit 31 - k of register j is position 32j + k of the sequence. -/
theorem getLsbD_packedWord (b : BitBuf) {j k : Nat} (hj : j < 9) (hk : k < 32) :
    (packedWord b j).getLsbD (31 - k) = bufBit b (32 * j + k) := by
  rw [packedWord, BitVec.getLsbD_extractLsb', BitVec.getLsbD_shiftLeft, BitVec.getLsbD_setWidth]
  have h1 : 31 - k < 32 := by omega
  have h2 : 256 - 32 * j + (31 - k) < 288 := by omega
  by_cases h : 32 * j + k < 264
  · rw [bufBit_eq_getLsbD _ h]
    have h3 : ¬ 256 - 32 * j + (31 - k) < 24 := by omega
    have h4 : 256 - 32 * j + (31 - k) - 24 = 263 - (32 * j + k) := by omega
    have h5 : 263 - (32 * j + k) < 288 := by omega
    simp [h1, h2, h3, h4, h5]
  · rw [bufBit_of_le _ (by omega)]
    have h3 : 256 - 32 * j + (31 - k) < 24 := by omega
    simp [h3]

/-- Bit m (0 the most significant) of byte n of a register. -/
theorem getMsbD_wordByte (v : Word) {n m : Nat} (hn : n < 4) (hm : m < 8) :
    (wordByte v n).getMsbD m = v.getLsbD (31 - 8 * n - m) := by
  rw [wordByte, BitVec.getMsbD, BitVec.getLsbD_extractLsb']
  have h1 : 8 - 1 - m < 8 := by omega
  have h2 : 24 - 8 * n + (8 - 1 - m) = 31 - 8 * n - m := by omega
  simp [h1, h2, hm]

/-- The first bit of ENT_W[j] and the rest of them: the entropy bits (R38). -/
theorem getLsbD_entWord (b : Block) {j k : Nat} (hj : j < 8) (hk : k < 32) (he : entV b ≤ 264) :
    (entWord b j).getLsbD (31 - k) = (decide (32 * j + k < entV b) && bufBit b.buf (32 * j + k)) := by
  rw [entWord, getLsbD_packedWord _ (by omega) hk, bufBit_keepFirst _ he (by omega)]

theorem getLsbD_accWord (b : Block) {j k : Nat} (hj : j < 9) (hk : k < 32) :
    (accWord b j).getLsbD (31 - k) = bufBit b.buf (32 * j + k) := getLsbD_packedWord _ hj hk

/-- A word whose bits, read from bit 31 down, are all false is 0. -/
theorem word_eq_zero {v : Word} (h : ∀ k, k < 32 → v.getLsbD (31 - k) = false) : v = 0#32 := by
  apply BitVec.eq_of_getLsbD_eq
  intro i hi
  have := h (31 - i) (by omega)
  rw [show 31 - (31 - i) = i by omega] at this
  simpa using this

end Sys2Proof.Machine
end

