-- ==== Sys2Proof/Laws/Decode.lean ====
section
/-! SUPPORT. Laws/Decode.lean: the fields of a command word (30_encoding.md R81). -/

namespace Sys2Proof

/-- The bits of a word put together from its three fields. -/
theorem getLsbD_fields (o : BitVec 4) (r : BitVec 17) (x : WordIndex) (i : Nat) :
    BitVec.getLsbD (w := 32) (o ++ (r ++ x)) i
      = if i < 28 then (if i < 11 then x.getLsbD i else r.getLsbD (i - 11)) else o.getLsbD (i - 28) := by
  have h1 := BitVec.getLsbD_append (x := o) (y := r ++ x) (i := i)
  rw [BitVec.getLsbD_append (x := r) (y := x)] at h1
  exact h1

/-- A word is its three fields (R81). -/
theorem word_eq_fields (v : Word) : v = opField v ++ (rsvField v ++ idxField v) := by
  apply BitVec.eq_of_getLsbD_eq
  intro i hi
  rw [getLsbD_fields]
  simp only [opField, rsvField, idxField, BitVec.getLsbD_extractLsb']
  by_cases h1 : i < 11
  · simp [h1, show i < 28 by omega]
  · by_cases h2 : i < 28
    · simp [h1, h2, show i - 11 < 17 by omega, show 11 + (i - 11) = i by omega]
    · simp [h2, show i - 28 < 4 by omega, show 28 + (i - 28) = i by omega]

theorem opField_fields (o : BitVec 4) (r : BitVec 17) (x : WordIndex) : opField (o ++ (r ++ x)) = o := by
  apply BitVec.eq_of_getLsbD_eq
  intro i hi
  rw [opField, BitVec.getLsbD_extractLsb', getLsbD_fields]
  simp [hi, show ¬ 28 + i < 28 by omega]

theorem rsvField_fields (o : BitVec 4) (r : BitVec 17) (x : WordIndex) : rsvField (o ++ (r ++ x)) = r := by
  apply BitVec.eq_of_getLsbD_eq
  intro i hi
  rw [rsvField, BitVec.getLsbD_extractLsb', getLsbD_fields]
  simp [hi, show 11 + i < 28 by omega, show ¬ 11 + i < 11 by omega]

theorem idxField_fields (o : BitVec 4) (r : BitVec 17) (x : WordIndex) : idxField (o ++ (r ++ x)) = x := by
  apply BitVec.eq_of_getLsbD_eq
  intro i hi
  rw [idxField, BitVec.getLsbD_extractLsb', getLsbD_fields]
  simp [hi, show i < 28 by omega]

@[simp] theorem opField_encode (i : Instr) : opField (encode i) = opOf i := opField_fields _ _ _
@[simp] theorem rsvField_encode (i : Instr) : rsvField (encode i) = 0#17 := rsvField_fields _ _ _
@[simp] theorem idxField_encode (i : Instr) : idxField (encode i) = idxOf i := idxField_fields _ _ _

/-- The fields of a word that decodes to a command are the command's (R84). -/
theorem fields_of_decode {v : Word} {i : Instr} (h : decode v = .command i) :
    opField v = opOf i ∧ rsvField v = 0#17 ∧ idxField v = idxOf i := by
  simp only [decode] at h
  split at h
  · cases h
  next hop =>
  split at h
  · cases h
  next hr =>
  split at h
  · cases h
  next hx =>
  have hr : rsvField v = 0#17 := not_not.mp hr
  have hx : opField v ≠ 2#4 → idxField v = 0#11 := fun h2 => by
    by_contra h3
    exact hx ⟨h2, h3⟩
  split at h
  next h0 => cases h; exact ⟨h0, hr, hx (by rw [h0]; decide)⟩
  split at h
  next h1 => cases h; exact ⟨h1, hr, hx (by rw [h1]; decide)⟩
  split at h
  next h2 => cases h; exact ⟨h2, hr, rfl⟩
  split at h
  next h3 => cases h; exact ⟨h3, hr, hx (by rw [h3]; decide)⟩
  next h0 h1 h2 h3 =>
  cases h
  have h4 : opField v = 4#4 := by
    clear hx hr
    generalize opField v = o at h0 h1 h2 h3 hop
    revert o
    decide
  exact ⟨h4, hr, hx (by rw [h4]; decide)⟩

/-- A word is illegal exactly under the three checks of R84, R85. -/
theorem decode_illegal_iff (v : Word) :
    (∃ why, decode v = .illegal why)
      ↔ (4#4 < opField v ∨ rsvField v ≠ 0#17 ∨ (opField v ≠ 2#4 ∧ idxField v ≠ 0#11)) := by
  unfold decode
  repeat' split
  all_goals simp_all

end Sys2Proof
end

