-- ==== Sys2Proof/Laws/Flags.lean ====
section
/-! SUPPORT. Laws/Flags.lean: the sizes of the split and the values compared (10_state.md R31). -/

namespace Sys2Proof.Machine

theorem legalCount_iff (w : BitVec 5) : legalCount w = true ↔ w.toNat ∈ [12, 15, 18, 21, 24] := by
  simp [legalCount, Config.legalCounts]

/-- The five legal counts, one by one. -/
theorem legal_cases {w : BitVec 5} (h : legalCount w = true) :
    w = 12#5 ∨ w = 15#5 ∨ w = 18#5 ∨ w = 21#5 ∨ w = 24#5 := by
  revert w
  decide

theorem entV_unsealed {b : Block} (h : b.sd = false) : entV b = 0 := by simp [entV, h]
theorem csV_unsealed {b : Block} (h : b.sd = false) : csV b = 0 := by simp [csV, h]

theorem entV_legal {b : Block} (h : b.sd = true) (hw : legalCount b.w = true) : entV b = 32 * b.w.toNat / 3 := by
  simp [entV, h, hw, Config.ent]

theorem csV_legal {b : Block} (h : b.sd = true) (hw : legalCount b.w = true) : csV b = b.w.toNat / 3 := by
  simp [csV, h, hw, Config.cs]

theorem entV_le (b : Block) : entV b ≤ 256 := by
  unfold entV
  split
  · split
    next _ hw => rcases legal_cases hw with h | h | h | h | h <;> rw [h] <;> decide
    · have := (Config.freeEnt b.w).isLt
      omega
  · omega

theorem csV_le (b : Block) : csV b ≤ 8 := by
  unfold csV
  split
  · split
    next _ hw => rcases legal_cases hw with h | h | h | h | h <;> rw [h] <;> decide
    · have := (Config.freeCs b.w).isLt
      omega
  · omega

/-- Every position the split reads lies in BUF (42_checksum_extractor.md R127). -/
theorem entV_add_csV_le (b : Block) : entV b + csV b ≤ 264 := by
  have := entV_le b
  have := csV_le b
  omega

/-- CSV is `seg(BUF, ENTv, CSv)`, which its 8 bits hold. -/
theorem csValue_toNat {b : Block} (h : b.sd = true) : (csValue b).toNat = seg b.buf (entV b) (csV b) := by
  have h1 := seg_lt b.buf (entV b) (csV b)
  have h2 : 2 ^ csV b ≤ 2 ^ 8 := Nat.pow_le_pow_right (by decide) (csV_le b)
  simp only [csValue, h, if_true, BitVec.toNat_ofNat]
  exact Nat.mod_eq_of_lt (by omega)

/-- The first CSv bits of the digest, as a number, which 8 bits hold. -/
theorem expCs_toNat {b : Block} (h : b.cd = true) : (expCs b).toNat = b.dig[0].toNat >>> (32 - csV b) := by
  have h1 : b.dig[0].toNat < 2 ^ 32 := b.dig[0].isLt
  have h2 := csV_le b
  simp only [expCs, h, if_true, BitVec.toNat_ofNat]
  refine Nat.mod_eq_of_lt ?_
  rw [Nat.shiftRight_eq_div_pow]
  refine Nat.div_lt_of_lt_mul ?_
  rw [← Nat.pow_add]
  exact lt_of_lt_of_le h1 (Nat.pow_le_pow_right (by decide) (by omega))

/-- Bit CSv-1-k of CSV is BUF⟨ENTv+k⟩: the first checksum bit is the most significant (R37). -/
theorem csValue_bit {b : Block} (h : b.sd = true) {k : Nat} (hk : k < csV b) :
    (csValue b).getLsbD (csV b - 1 - k) = bufBit b.buf (entV b + k) := by
  rw [BitVec.getLsbD, csValue_toNat h, testBit_seg _ (entV_add_csV_le b) hk]

theorem csValue_high (b : Block) {i : Nat} (hi : csV b ≤ i) : (csValue b).getLsbD i = false := by
  cases h : b.sd
  · simp [csValue, h]
  · rw [BitVec.getLsbD, csValue_toNat h]
    exact Nat.testBit_lt_two_pow (lt_of_lt_of_le (seg_lt _ _ _) (Nat.pow_le_pow_right (by decide) hi))

/-- Bit CSv-1-k of EXPCS is DIG[0][31-k] (R37, R138). -/
theorem expCs_bit {b : Block} (h : b.cd = true) {k : Nat} (hk : k < csV b) :
    (expCs b).getLsbD (csV b - 1 - k) = b.dig[0].getLsbD (31 - k) := by
  have h2 := csV_le b
  rw [BitVec.getLsbD, expCs_toNat h, Nat.testBit_shiftRight, BitVec.getLsbD]
  congr 1
  omega

theorem expCs_high (b : Block) {i : Nat} (hi : csV b ≤ i) : (expCs b).getLsbD i = false := by
  have h2 := csV_le b
  cases h : b.cd
  · simp [expCs, h]
  · rw [BitVec.getLsbD, expCs_toNat h, Nat.testBit_shiftRight]
    exact BitVec.getLsbD_of_ge b.dig[0] _ (by omega)

end Sys2Proof.Machine
end

