-- ==== Sys2Proof/Laws/PerInstr.lean ====
section
/-! SUPPORT. Laws/PerInstr.lean: the per-instruction family FitsOneRow: a command's word matches exactly the row of the map of
30_encoding.md R89 that bears its mnemonic. -/

namespace Sys2Proof.Laws.FitsOneRow

/-- The mnemonic of a command in R82. -/
def mnemonicOf : Instr → String
  | .nop => "NOP"
  | .clear => "CLEAR"
  | .push _ => "PUSH"
  | .split => "SPLIT"
  | .compare => "COMPARE"

/-- The rows the command's word matches are one row, with the command's mnemonic. -/
def Statement (i : Instr) : Prop := (matchingRows (encode i)).map OpcodeRow.mnemonic = [mnemonicOf i]

theorem nop : Statement .nop := by unfold Statement; decide
theorem clear : Statement .clear := by unfold Statement; decide
theorem push (idx : WordIndex) : Statement (.push idx) := by
  unfold Statement
  revert idx
  decide
theorem split : Statement .split := by unfold Statement; decide
theorem compare : Statement .compare := by unfold Statement; decide

end Sys2Proof.Laws.FitsOneRow
end

