-- ==== Sys2Proof/Laws/State.lean ====
section
/-! SUPPORT. Laws/State.lean: one lemma per field per update of the state, true by rfl. -/

namespace Sys2Proof.Machine

section BlockUpdates

variable (b : Block) (e : CmdErr) (idx : WordIndex) (j : Fin 8) (v : Word)

@[simp] theorem Block.raise_buf : (b.raise e).buf = b.buf := by cases e <;> rfl
@[simp] theorem Block.raise_w : (b.raise e).w = b.w := by cases e <;> rfl
@[simp] theorem Block.raise_sd : (b.raise e).sd = b.sd := by cases e <;> rfl
@[simp] theorem Block.raise_cd : (b.raise e).cd = b.cd := by cases e <;> rfl
@[simp] theorem Block.raise_dig : (b.raise e).dig = b.dig := by cases e <;> rfl
@[simp] theorem Block.raise_lastErr : (b.raise e).lastErr = e.code := by cases e <;> rfl
@[simp] theorem Block.raise_eIll : (b.raise e).eIll = (decide (e = .illegal) || b.eIll) := by cases e <;> simp [raise]
@[simp] theorem Block.raise_eSeq : (b.raise e).eSeq = (decide (e = .seq) || b.eSeq) := by cases e <;> simp [raise]
@[simp] theorem Block.raise_eOvf : (b.raise e).eOvf = (decide (e = .overflow) || b.eOvf) := by cases e <;> simp [raise]
@[simp] theorem Block.raise_eCnt : (b.raise e).eCnt = (decide (e = .count) || b.eCnt) := by cases e <;> simp [raise]

/-- Raising the same error twice is raising it once (R57). -/
theorem Block.raise_raise : (b.raise e).raise e = b.raise e := by cases e <;> rfl

@[simp] theorem Block.append_buf : (b.append idx).buf = writeIndex b.buf (11 * b.w.toNat) idx := rfl
@[simp] theorem Block.append_w : (b.append idx).w = b.w + 1#5 := rfl
@[simp] theorem Block.append_sd : (b.append idx).sd = b.sd := rfl
@[simp] theorem Block.append_cd : (b.append idx).cd = b.cd := rfl
@[simp] theorem Block.append_eIll : (b.append idx).eIll = b.eIll := rfl
@[simp] theorem Block.append_eSeq : (b.append idx).eSeq = b.eSeq := rfl
@[simp] theorem Block.append_eOvf : (b.append idx).eOvf = b.eOvf := rfl
@[simp] theorem Block.append_eCnt : (b.append idx).eCnt = b.eCnt := rfl
@[simp] theorem Block.append_lastErr : (b.append idx).lastErr = b.lastErr := rfl
@[simp] theorem Block.append_dig : (b.append idx).dig = b.dig := rfl

@[simp] theorem Block.seal_buf : b.seal.buf = b.buf := rfl
@[simp] theorem Block.seal_w : b.seal.w = b.w := rfl
@[simp] theorem Block.seal_sd : b.seal.sd = true := rfl
@[simp] theorem Block.seal_cd : b.seal.cd = b.cd := rfl
@[simp] theorem Block.seal_eIll : b.seal.eIll = b.eIll := rfl
@[simp] theorem Block.seal_eSeq : b.seal.eSeq = b.eSeq := rfl
@[simp] theorem Block.seal_eOvf : b.seal.eOvf = b.eOvf := rfl
@[simp] theorem Block.seal_eCnt : b.seal.eCnt = b.eCnt := rfl
@[simp] theorem Block.seal_lastErr : b.seal.lastErr = b.lastErr := rfl
@[simp] theorem Block.seal_dig : b.seal.dig = b.dig := rfl

@[simp] theorem Block.markCompared_buf : b.markCompared.buf = b.buf := rfl
@[simp] theorem Block.markCompared_w : b.markCompared.w = b.w := rfl
@[simp] theorem Block.markCompared_sd : b.markCompared.sd = b.sd := rfl
@[simp] theorem Block.markCompared_cd : b.markCompared.cd = true := rfl
@[simp] theorem Block.markCompared_eIll : b.markCompared.eIll = b.eIll := rfl
@[simp] theorem Block.markCompared_eSeq : b.markCompared.eSeq = b.eSeq := rfl
@[simp] theorem Block.markCompared_eOvf : b.markCompared.eOvf = b.eOvf := rfl
@[simp] theorem Block.markCompared_eCnt : b.markCompared.eCnt = b.eCnt := rfl
@[simp] theorem Block.markCompared_lastErr : b.markCompared.lastErr = b.lastErr := rfl
@[simp] theorem Block.markCompared_dig : b.markCompared.dig = b.dig := rfl

@[simp] theorem Block.writeDigest_buf : (b.writeDigest j v).buf = b.buf := rfl
@[simp] theorem Block.writeDigest_w : (b.writeDigest j v).w = b.w := rfl
@[simp] theorem Block.writeDigest_sd : (b.writeDigest j v).sd = b.sd := rfl
@[simp] theorem Block.writeDigest_cd : (b.writeDigest j v).cd = false := rfl
@[simp] theorem Block.writeDigest_eIll : (b.writeDigest j v).eIll = b.eIll := rfl
@[simp] theorem Block.writeDigest_eSeq : (b.writeDigest j v).eSeq = b.eSeq := rfl
@[simp] theorem Block.writeDigest_eOvf : (b.writeDigest j v).eOvf = b.eOvf := rfl
@[simp] theorem Block.writeDigest_eCnt : (b.writeDigest j v).eCnt = b.eCnt := rfl
@[simp] theorem Block.writeDigest_lastErr : (b.writeDigest j v).lastErr = b.lastErr := rfl
@[simp] theorem Block.writeDigest_dig : (b.writeDigest j v).dig = b.dig.set j v := rfl

end BlockUpdates

section ResetValues

@[simp] theorem Block.reset_buf : Block.reset.buf = 0#264 := rfl
@[simp] theorem Block.reset_w : Block.reset.w = 0#5 := rfl
@[simp] theorem Block.reset_sd : Block.reset.sd = false := rfl
@[simp] theorem Block.reset_cd : Block.reset.cd = false := rfl
@[simp] theorem Block.reset_eIll : Block.reset.eIll = false := rfl
@[simp] theorem Block.reset_eSeq : Block.reset.eSeq = false := rfl
@[simp] theorem Block.reset_eOvf : Block.reset.eOvf = false := rfl
@[simp] theorem Block.reset_eCnt : Block.reset.eCnt = false := rfl
@[simp] theorem Block.reset_lastErr : Block.reset.lastErr = 0#4 := rfl
@[simp] theorem State.reset_blk : State.reset.blk = Block.reset := rfl
@[simp] theorem State.reset_rst : State.reset.rst = false := rfl
@[simp] theorem State.reset_pending : State.reset.pending = [] := rfl
@[simp] theorem State.reset_response : State.reset.response = none := rfl

end ResetValues

section StateUpdates

variable (s : State) (b : Block) (r : Response) (e : Event)

@[simp] theorem State.setBlk_blk : (s.setBlk b).blk = b := rfl
@[simp] theorem State.setBlk_rst : (s.setBlk b).rst = s.rst := rfl
@[simp] theorem State.setBlk_pending : (s.setBlk b).pending = s.pending := rfl
@[simp] theorem State.setBlk_response : (s.setBlk b).response = s.response := rfl
@[simp] theorem State.setBlk_self : s.setBlk s.blk = s := rfl
@[simp] theorem State.setBlk_setBlk (b' : Block) : (s.setBlk b).setBlk b' = s.setBlk b' := rfl
@[simp] theorem State.respond_blk : (s.respond r).blk = s.blk := rfl
@[simp] theorem State.respond_rst : (s.respond r).rst = s.rst := rfl
@[simp] theorem State.respond_pending : (s.respond r).pending = s.pending := rfl
@[simp] theorem State.respond_response : (s.respond r).response = some r := rfl
@[simp] theorem State.offer_blk : (s.offer e).blk = s.blk := rfl
@[simp] theorem State.offer_rst : (s.offer e).rst = s.rst := rfl
@[simp] theorem State.offer_pending : (s.offer e).pending = e :: s.pending := rfl
@[simp] theorem State.offer_response : (s.offer e).response = s.response := rfl
@[simp] theorem assertReset_blk : (assertReset s).blk = Block.reset := rfl
@[simp] theorem assertReset_rst : (assertReset s).rst = true := rfl
@[simp] theorem assertReset_pending : (assertReset s).pending = s.pending := rfl
@[simp] theorem assertReset_response : (assertReset s).response = s.response := rfl
@[simp] theorem releaseReset_blk : (releaseReset s).blk = s.blk := rfl
@[simp] theorem releaseReset_rst : (releaseReset s).rst = false := rfl
@[simp] theorem releaseReset_pending : (releaseReset s).pending = s.pending := rfl
@[simp] theorem releaseReset_response : (releaseReset s).response = s.response := rfl

end StateUpdates

end Sys2Proof.Machine
end

