-- ==== Sys2Proof/Laws/Step.lean ====
section
/-! SUPPORT. Laws/Step.lean: once, everything a command, an access and a step can do. -/

namespace Sys2Proof.Machine

/-! ### The register map -/

/-- The register at an offset has that offset: nothing is aliased (20_memory.md R51). -/
theorem offset_of_regAt {off : Offset} {r : Reg} (h : regAt off = some r) : off = r.offset := by
  have key : ∀ off : Offset, (match regAt off with | some r => decide (off = r.offset) | none => true) = true := by
    decide
  have := key off
  rw [h] at this
  simpa using this

/-- Every register is found at its offset (10_state.md R32). -/
@[simp] theorem regAt_offset (r : Reg) : regAt r.offset = some r := by
  cases r with
  | entW j => revert j; decide
  | digestW j => revert j; decide
  | accW j => revert j; decide
  | _ => decide

/-- The offsets at which there is no register (20_memory.md R58 (b), (c)). -/
theorem regAt_none_iff (off : Offset) :
    regAt off = none ↔ off.toNat % 4 ≠ 0 ∨ (0x14 ≤ off.toNat ∧ off.toNat ≤ 0x1F) ∨ 0x84 ≤ off.toNat := by
  revert off
  decide

theorem readReg_isSome (b : Block) {r : Reg} (h : r ≠ .cmd) : ∃ v, readReg b r = some v := by
  cases r <;> first | exact absurd rfl h | exact ⟨_, rfl⟩

/-! ### Commands -/

/-- The command errors a command raises, and when (60_exceptions.md R150). -/
def Raises (i : Instr) (b : Block) (e : CmdErr) : Prop :=
  (∃ idx, i = .push idx ∧ e = .seq ∧ b.sd = true)
  ∨ (∃ idx, i = .push idx ∧ e = .overflow ∧ b.sd = false ∧ b.w = 24#5)
  ∨ (i = .split ∧ e = .count ∧ legalCount b.w = false)
  ∨ (i = .compare ∧ e = .seq ∧ b.sd = false)

/-- Everything a command can do to the block when it goes on. -/
def CommandEffect (i : Instr) (b b' : Block) : Prop :=
  (i = .nop ∧ b' = b)
  ∨ (i = .clear ∧ b' = Block.reset)
  ∨ (∃ idx, i = .push idx ∧ b.sd = false ∧ b.w.toNat < 24 ∧ b' = b.append idx)
  ∨ (i = .split ∧ legalCount b.w = true ∧ b' = b.seal)
  ∨ (i = .compare ∧ b.sd = true ∧ b' = b.markCompared)
  ∨ ∃ e, Raises i b e ∧ b' = b.raise e

theorem exec_cases {i : Instr} {s t : State} (h : exec i s = .next t) :
    t = s.setBlk t.blk ∧ CommandEffect i s.blk t.blk := by
  cases i with
  | nop => cases h; exact ⟨rfl, .inl ⟨rfl, rfl⟩⟩
  | clear => cases h; exact ⟨rfl, .inr (.inl ⟨rfl, rfl⟩)⟩
  | push idx =>
    simp only [exec, execPush, cmdError, appendIndex] at h
    split at h
    next hs =>
      cases h
      exact ⟨rfl, .inr (.inr (.inr (.inr (.inr ⟨.seq, .inl ⟨idx, rfl, rfl, hs⟩, rfl⟩))))⟩
    next hs =>
    have hs : s.blk.sd = false := by simpa using hs
    split at h
    next hw =>
      cases h
      exact ⟨rfl, .inr (.inr (.inr (.inr (.inr ⟨.overflow, .inr (.inl ⟨idx, rfl, rfl, hs, hw⟩), rfl⟩))))⟩
    next hw =>
    split at h
    · cases h
    next hb =>
      cases h
      have : s.blk.w.toNat ≠ 24 := fun h24 => hw (BitVec.eq_of_toNat_eq h24)
      exact ⟨rfl, .inr (.inr (.inl ⟨idx, rfl, hs, by omega, rfl⟩))⟩
  | split =>
    simp only [exec, execSplit, cmdError] at h
    split at h
    next hl => cases h; exact ⟨rfl, .inr (.inr (.inr (.inl ⟨rfl, hl, rfl⟩)))⟩
    next hl =>
      cases h
      exact ⟨rfl, .inr (.inr (.inr (.inr (.inr
        ⟨.count, .inr (.inr (.inl ⟨rfl, rfl, by simpa using hl⟩)), rfl⟩))))⟩
  | compare =>
    simp only [exec, execCompare, cmdError] at h
    split at h
    next hs => cases h; exact ⟨rfl, .inr (.inr (.inr (.inr (.inl ⟨rfl, hs, rfl⟩))))⟩
    next hs =>
      cases h
      exact ⟨rfl, .inr (.inr (.inr (.inr (.inr
        ⟨.seq, .inr (.inr (.inr ⟨rfl, rfl, by simpa using hs⟩)), rfl⟩))))⟩

/-- No command is refused. -/
theorem exec_not_refused (i : Instr) (s : State) (ρ : Refusal) : exec i s ≠ .refused ρ := by
  cases i <;> simp only [exec, execNop, execClear, execPush, execSplit, execCompare, cmdError, appendIndex]
  all_goals (repeat' split) <;> exact fun h => by cases h

/-- A command faults only as a PUSH outside the buffer. -/
theorem exec_fault {i : Instr} {s : State} {f : Fault} (h : exec i s = .fault f) :
    (∃ idx, i = .push idx) ∧ s.blk.sd = false ∧ 24 < s.blk.w.toNat := by
  cases i with
  | nop => cases h
  | clear => cases h
  | push idx =>
    simp only [exec, execPush, cmdError, appendIndex] at h
    split at h
    · cases h
    next hs =>
    split at h
    · cases h
    next hw =>
    split at h
    next hb =>
      have : s.blk.w.toNat ≠ 24 := fun h24 => hw (BitVec.eq_of_toNat_eq h24)
      exact ⟨⟨idx, rfl⟩, by simpa using hs, by omega⟩
    · cases h
  | split => simp only [exec, execSplit, cmdError] at h; split at h <;> cases h
  | compare => simp only [exec, execCompare, cmdError] at h; split at h <;> cases h

/-! ### Accesses -/

/-- Everything an access can do to the block when the machine goes on. -/
def AccessEffect (r : Request) (s t : State) : Prop :=
  (t.blk = s.blk ∧ (t.response = some .err ∨ ∃ d, t.response = some (.okData d)))
  ∨ (s.rst = false ∧ t.response = some .ok ∧
      ((∃ (j : Fin 8) (v : Word), r = .write (Reg.digestW j).offset 4 v ∧ t.blk = s.blk.writeDigest j v)
      ∨ (∃ v i, r = .write 0x00#8 4 v ∧ decode v = .command i ∧ CommandEffect i s.blk t.blk)
      ∨ (∃ v why, r = .write 0x00#8 4 v ∧ decode v = .illegal why ∧ t.blk = s.blk.raise .illegal)))

/-- A read changes only the response: ERR or OK with data (R55). -/
theorem memRead_cases (off : Offset) (size : Nat) (s : State) :
    memRead off size s = .next (s.respond .err) ∨ ∃ d, memRead off size s = .next (s.respond (.okData d)) := by
  unfold memRead busError
  split
  · exact .inl rfl
  split
  · exact .inl rfl
  split
  · exact .inl rfl
  next d _ => exact .inr ⟨d, rfl⟩

/-- A 4-byte read of a register with a value answers the value (R55). -/
theorem memRead_reg {s : State} {r : Reg} {v : Word} (h : readReg s.blk r = some v) :
    memRead r.offset 4 s = .next (s.respond (.okData v)) := by
  simp [memRead, h]

theorem memWrite_digest (s : State) (j : Fin 8) (v : Word) :
    memWrite (Reg.digestW j).offset 4 v s = .next ((s.respond .ok).setBlk (s.blk.writeDigest j v)) := by
  simp [memWrite]

theorem memWrite_cmd (s : State) (v : Word) : memWrite 0x00#8 4 v s = execute v (s.respond .ok) := rfl

theorem execute_command {v : Word} {i : Instr} (h : decode v = .command i) (s : State) :
    execute v s = exec i s := by
  simp [execute, h]

theorem execute_illegal {v : Word} {why : IllegalWord} (h : decode v = .illegal why) (s : State) :
    execute v s = .next (s.setBlk (s.blk.raise .illegal)) := by
  simp [execute, h, cmdError]

theorem serve_cases {r : Request} {s t : State} (h : serve r s = .next t) :
    t.rst = s.rst ∧ t.pending = s.pending ∧ AccessEffect r s t := by
  unfold serve busError at h
  split at h
  · cases h; exact ⟨rfl, rfl, .inl ⟨rfl, .inl rfl⟩⟩
  next hr =>
  have hr : s.rst = false := by simpa using hr
  cases r with
  | read off size =>
    rcases memRead_cases off size s with h' | ⟨d, h'⟩ <;> simp only [h'] at h <;> cases h
    · exact ⟨rfl, rfl, .inl ⟨rfl, .inl rfl⟩⟩
    · exact ⟨rfl, rfl, .inl ⟨rfl, .inr ⟨d, rfl⟩⟩⟩
  | write off size v =>
    simp only [memWrite, busError] at h
    split at h
    · cases h; exact ⟨rfl, rfl, .inl ⟨rfl, .inl rfl⟩⟩
    next hsz =>
    have hsz : size = 4 := not_not.mp hsz
    subst hsz
    split at h
    next hreg =>
      have := offset_of_regAt hreg
      subst this
      cases hd : decode v with
      | command i =>
        rw [execute_command hd] at h
        obtain ⟨ht, he⟩ := exec_cases h
        refine ⟨?_, ?_, .inr ⟨hr, ?_, .inr (.inl ⟨v, i, rfl, hd, he⟩)⟩⟩ <;> rw [ht] <;> rfl
      | illegal why =>
        rw [execute_illegal hd] at h
        cases h
        exact ⟨rfl, rfl, .inr ⟨hr, rfl, .inr (.inr ⟨v, why, rfl, hd, rfl⟩)⟩⟩
    next j hreg =>
      have := offset_of_regAt hreg
      subst this
      cases h
      exact ⟨rfl, rfl, .inr ⟨hr, rfl, .inl ⟨j, v, rfl, rfl⟩⟩⟩
    next => cases h; exact ⟨rfl, rfl, .inl ⟨rfl, .inl rfl⟩⟩

/-- An access stops the machine only as a PUSH outside the buffer. -/
theorem serve_stop {r : Request} {s : State} :
    (∀ ρ, serve r s ≠ .refused ρ) ∧
    (∀ f, serve r s = .fault f →
      s.rst = false ∧ s.blk.sd = false ∧ 24 < s.blk.w.toNat ∧ ∃ v idx, r = .write 0x00#8 4 v ∧ decode v = .command (.push idx)) := by
  unfold serve busError
  split
  · exact ⟨fun ρ h => (by cases h), fun f h => (by cases h)⟩
  next hr =>
  have hr : s.rst = false := by simpa using hr
  cases r with
  | read off size =>
    rcases memRead_cases off size s with h' | ⟨d, h'⟩ <;> simp only [h'] <;>
      exact ⟨fun ρ h => (by cases h), fun f h => (by cases h)⟩
  | write off size v =>
    simp only [memWrite, busError]
    split
    · exact ⟨fun ρ h => (by cases h), fun f h => (by cases h)⟩
    next hsz =>
    have hsz : size = 4 := not_not.mp hsz
    subst hsz
    split
    next hreg =>
      have := offset_of_regAt hreg
      subst this
      cases hd : decode v with
      | command i =>
        simp only [execute_command hd]
        refine ⟨fun ρ => exec_not_refused _ _ ρ, fun f h => ?_⟩
        obtain ⟨⟨idx, rfl⟩, hs, hw⟩ := exec_fault h
        exact ⟨hr, hs, hw, v, idx, rfl, hd⟩
      | illegal why =>
        simp only [execute_illegal hd]
        exact ⟨fun ρ h => (by cases h), fun f h => (by cases h)⟩
    · exact ⟨fun ρ h => (by cases h), fun f h => (by cases h)⟩
    · exact ⟨fun ρ h => (by cases h), fun f h => (by cases h)⟩

/-! ### Steps -/

/-- An offered event is the one the step takes. -/
@[simp] theorem step_offer (s : State) (e : Event) : step (s.offer e) = takeEvent e s := rfl

theorem step_idle {s : State} (h : s.pending = []) : step s = .next s := by
  simp [step, h]

theorem step_takes {s : State} {e : Event} {rest : List Event} (h : s.pending = e :: rest) :
    step s = takeEvent e { s with pending := rest } := by
  simp [step, h]

theorem takeEvent_read {s : State} (h : s.rst = false) (off : Offset) (size : Nat) :
    takeEvent (.access (.read off size)) s = memRead off size s := by
  simp [takeEvent, serve, h]

theorem takeEvent_write {s : State} (h : s.rst = false) (off : Offset) (size : Nat) (v : Word) :
    takeEvent (.access (.write off size v)) s = memWrite off size v s := by
  simp [takeEvent, serve, h]

/-- The write of a command word runs it, with the OK response given (R59). -/
theorem takeEvent_cmdWrite {s : State} (h : s.rst = false) (v : Word) :
    takeEvent (cmdWrite v) s = execute v (s.respond .ok) :=
  (takeEvent_write h _ _ _).trans (memWrite_cmd s v)

theorem takeEvent_inReset {s : State} (h : s.rst = true) (r : Request) :
    takeEvent (.access r) s = .next (s.respond .err) := by
  simp [takeEvent, serve, h, busError]

/-- Everything a step can do when the machine goes on. -/
theorem step_cases {s t : State} (h : step s = .next t) :
    (s.pending = [] ∧ t = s) ∨
    ∃ e rest, s.pending = e :: rest ∧ t.pending = rest ∧
      ((e = .resetAssert ∧ t.blk = Block.reset ∧ t.rst = true ∧ t.response = s.response)
      ∨ (e = .resetRelease ∧ t.blk = s.blk ∧ t.rst = false ∧ t.response = s.response)
      ∨ (∃ r, e = .access r ∧ t.rst = s.rst ∧ AccessEffect r s t)) := by
  cases hp : s.pending with
  | nil =>
    rw [step_idle hp] at h
    cases h
    exact .inl ⟨rfl, rfl⟩
  | cons e rest =>
    rw [step_takes hp] at h
    refine .inr ⟨e, rest, rfl, ?_⟩
    cases e with
    | resetAssert => cases h; exact ⟨rfl, .inl ⟨rfl, rfl, rfl, rfl⟩⟩
    | resetRelease => cases h; exact ⟨rfl, .inr (.inl ⟨rfl, rfl, rfl, rfl⟩)⟩
    | access r =>
      obtain ⟨h1, h2, h3⟩ := serve_cases h
      exact ⟨h2, .inr (.inr ⟨r, rfl, h1, h3⟩)⟩

/-- What a step can do to the block, with the event that does it. -/
theorem step_blk_cases {s t : State} (h : step s = .next t) :
    t.blk = s.blk
    ∨ (Takes s .resetAssert ∧ t.blk = Block.reset)
    ∨ (s.rst = false ∧ ∃ (j : Fin 8) (v : Word), Takes s (.access (.write (Reg.digestW j).offset 4 v)) ∧
        t.blk = s.blk.writeDigest j v)
    ∨ (s.rst = false ∧ ∃ v i, Takes s (cmdWrite v) ∧ decode v = .command i ∧ CommandEffect i s.blk t.blk)
    ∨ (s.rst = false ∧ ∃ v why, Takes s (cmdWrite v) ∧ decode v = .illegal why ∧ t.blk = s.blk.raise .illegal) := by
  rcases step_cases h with ⟨-, rfl⟩ | ⟨e, rest, hp, -, h⟩
  · exact .inl rfl
  rcases h with ⟨rfl, hb, -⟩ | ⟨rfl, hb, -⟩ | ⟨r, rfl, -, h⟩
  · exact .inr (.inl ⟨⟨rest, hp⟩, hb⟩)
  · exact .inl hb
  rcases h with ⟨hb, -⟩ | ⟨hr, -, h⟩
  · exact .inl hb
  rcases h with ⟨j, v, rfl, hb⟩ | ⟨v, i, rfl, hd, he⟩ | ⟨v, why, rfl, hd, hb⟩
  · exact .inr (.inr (.inl ⟨hr, j, v, ⟨rest, hp⟩, hb⟩))
  · exact .inr (.inr (.inr (.inl ⟨hr, v, i, ⟨rest, hp⟩, hd, he⟩)))
  · exact .inr (.inr (.inr (.inr ⟨hr, v, why, ⟨rest, hp⟩, hd, hb⟩)))

end Sys2Proof.Machine
end

