-- ==== Sys2Proof/Tests/Slice0.lean ====
section
/-! SUPPORT. Tests/Slice0.lean: tests against the spec's own encodings and vectors (30_encoding.md R90, 95_test_vectors.md),
the smoke tests of the well-formedness checks, and for every obligation with hypotheses a witness that meets them. -/

namespace Sys2Proof.Tests

open Sys2Proof.Machine

set_option exponentiation.threshold 300

/-! ### Helpers -/

/-- The reset machine with block b. -/
def onBlock (b : Block) : State := { State.reset with blk := b }

/-- A block with a count and the two done flags, everything else as after reset. -/
def counted (w : BitVec 5) (sd cd : Bool) : Block := { Block.reset with w := w, sd := sd, cd := cd }

/-- The buffer and count of program P1 (11 zeros, then 3): BUF⟨130⟩ and BUF⟨131⟩ are set. -/
def loadedP1 : Block := { Block.reset with buf := 3#264 <<< 132, w := 12#5 }

/-- P1 after SPLIT. -/
def sealedP1 : Block := { loadedP1 with sd := true }

/-- P1 after SPLIT, the write of DIGEST_W0 and COMPARE. -/
def comparedP1 : Block := { sealedP1 with cd := true, dig := Block.reset.dig.set 0 0x374708FF#32 }

/-- A value of the next state. -/
def after {α : Type} (r : Result) (f : State → α) : Option α :=
  match r with
  | .next t => some (f t)
  | _ => none

/-- What a register reads in the state. -/
def reads (r : Reg) (s : State) : Option Word := readReg s.blk r

/-- One host access, taken at once. -/
def access (r : Request) (b : Block) : Result := step ((onBlock b).offer (.access r))

/-- One CMD write, taken at once. -/
def command (v : Word) (b : Block) : Result := step ((onBlock b).offer (cmdWrite v))

/-! ### Decoding: words written out from the fields of R81 and R82 -/

/-- NOP: OP 0. -/
theorem test_decode_nop : decode 0b0000_00000000000000000_00000000000#32 = .command .nop := by decide

/-- CLEAR: OP 1. -/
theorem test_decode_clear : decode 0b0001_00000000000000000_00000000000#32 = .command .clear := by decide

/-- PUSH 1019 (R90: 0x200003FB): OP 2, IDX 01111111011. -/
theorem test_decode_push : decode 0b0010_00000000000000000_01111111011#32 = .command (.push 1019#11) := by decide

/-- SPLIT: OP 3. -/
theorem test_decode_split : decode 0b0011_00000000000000000_00000000000#32 = .command .split := by decide

/-- COMPARE: OP 4. -/
theorem test_decode_compare : decode 0b0100_00000000000000000_00000000000#32 = .command .compare := by decide

/-- V-D2, V-D6, V-D7, V-D9, V-D11, V-D12, V-D13, V-D14, V-D15: the illegal words, with the check of R84 that refuses each. -/
theorem test_decode_illegal :
    decode 0x00000001#32 = .illegal .operandOnNone ∧ decode 0x20000800#32 = .illegal .reservedBits
    ∧ decode 0x20010000#32 = .illegal .reservedBits ∧ decode 0x30000001#32 = .illegal .operandOnNone
    ∧ decode 0x48000000#32 = .illegal .reservedBits ∧ decode 0x50000000#32 = .illegal .reservedOp
    ∧ decode 0xF00007FF#32 = .illegal .reservedOp ∧ decode 0xFFFFFFFF#32 = .illegal .reservedOp
    ∧ decode 0x10000001#32 = .illegal .operandOnNone := by decide

/-- The words of the opcode table, as the table numbers their bits. -/
theorem test_decode_table_words :
    decodeTableWord 32 0x00000000 = some .nop ∧ decodeTableWord 32 0x10000000 = some .clear
    ∧ decodeTableWord 32 0x20000000 = some (.push 0#11) ∧ decodeTableWord 32 0x30000000 = some .split
    ∧ decodeTableWord 32 0x40000000 = some .compare ∧ decodeTableWord 32 0x50000000 = none := by decide

/-! ### Well-formedness: an ill-formed term for each check -/

/-- R84, R89: a reserved OP, a reserved bit and an operand on a command without one fit no row of the map. -/
theorem test_wf_word_refused :
    legalWord 0x50000000#32 = false ∧ legalWord 0x20000800#32 = false ∧ legalWord 0x30000001#32 = false := by decide

/-- R89: each row's own word is legal. -/
theorem test_wf_word_accepted :
    legalWord 0x00000000#32 = true ∧ legalWord 0x10000000#32 = true ∧ legalWord 0x200007FF#32 = true
    ∧ legalWord 0x30000000#32 = true ∧ legalWord 0x40000000#32 = true := by decide

/-- R83: every command is well-formed at the ends of its operand's range (the width shuts out every other index). -/
theorem test_wf_command :
    Instr.nop.wf = true ∧ Instr.clear.wf = true ∧ (Instr.push 0#11).wf = true ∧ (Instr.push 2047#11).wf = true
    ∧ Instr.split.wf = true ∧ Instr.compare.wf = true := by decide

/-- R88: LOAD of 0 or 25 indices, and READENT 3 or 9. -/
theorem test_wf_line_refused :
    (AsmLine.load []).wf = false ∧ (AsmLine.load (List.replicate 25 0#11)).wf = false
    ∧ (AsmLine.readEnt 3).wf = false ∧ (AsmLine.readEnt 9).wf = false := by decide

/-! ### One step of each command, from 95_test_vectors.md -/

/-- V-C1: NOP from a state with every kind of content. -/
theorem test_nop_changes_nothing :
    after (command 0x00000000#32 comparedP1) State.blk = some comparedP1 := by decide

/-- V-C3: CLEAR with flags, data and a digest. -/
theorem test_clear_zeroes :
    after (command 0x10000000#32 { comparedP1 with eIll := true, eSeq := true, eCnt := true, lastErr := 1#4 })
      (fun t => [reads .status t, reads .wcount t, reads .params t, reads (.digestW 0) t, reads (.accW 4) t])
      = some [some 0#32, some 0#32, some 0#32, some 0#32, some 0#32] := by decide

/-- V-P4: the third index straddles ACC_W0 and ACC_W1. -/
theorem test_push_straddles :
    after (command 0x20000555#32 { Block.reset with buf := (0x555#264 <<< 253) ||| (0x2AA#264 <<< 242), w := 2#5 })
      (fun t => [reads (.accW 0) t, reads (.accW 1) t, reads .wcount t, reads .status t])
      = some [some 0xAAAAAAAA#32, some 0x80000000#32, some 0x00210003#32, some 0#32] := by decide

/-- V-P6, V-P7: the 25th index. -/
theorem test_push_overflows :
    after (command 0x20000001#32 { Block.reset with buf := BitVec.allOnes 264, w := 24#5 })
      (fun t => [reads .status t, reads .wcount t, reads (.accW 7) t, reads (.accW 8) t])
      = some [some 0x00000340#32, some 0x01080018#32, some 0xFFFFFFFF#32, some 0xFF000000#32] := by decide

/-- V-S8. -/
theorem test_split_seals :
    after (command 0x30000000#32 loadedP1)
      (fun t => [reads .status t, reads .params t, reads .csbits t, reads (.entW 3) t, reads (.entW 4) t])
      = some [some 0x00000001#32, some 0x00040080#32, some 0x00000003#32, some 0#32, some 0#32] := by decide

/-- V-S2: W = 3 is a multiple of 3 and not legal. -/
theorem test_split_counts :
    after (command 0x30000000#32 (counted 3#5 false false))
      (fun t => [reads .status t, reads .params t, reads .csbits t])
      = some [some 0x00000480#32, some 0#32, some 0#32] := by decide

/-- V-M2 and V-M4. -/
theorem test_compare_matches :
    after (command 0x40000000#32 { sealedP1 with dig := Block.reset.dig.set 0 0x374708FF#32 })
      (fun t => [reads .status t, reads .csbits t]) = some [some 0x00000007#32, some 0x00000303#32]
    ∧ after (command 0x40000000#32 { sealedP1 with dig := Block.reset.dig.set 0 0x2FFFFFFF#32 })
      (fun t => [reads .status t, reads .csbits t]) = some [some 0x00000003#32, some 0x00000203#32] := by decide

/-- V-M1. -/
theorem test_compare_before_split :
    after (command 0x40000000#32 Block.reset) (fun t => [reads .status t, reads .csbits t])
      = some [some 0x00000220#32, some 0#32] := by decide

/-- V-D15: CLEAR with an operand is illegal and clears nothing. -/
theorem test_illegal_keeps_flags :
    after (command 0x10000001#32 { Block.reset with eCnt := true, lastErr := 4#4 }) (reads .status)
      = some (some 0x00000190#32) := by decide

/-! ### Register accesses, from the vectors of 95_test_vectors.md section 2.6 -/

/-- V-B1, V-B3, V-B4, V-B6, V-B7, V-B10: reads. -/
theorem test_bus_reads :
    after (access (.read 0x00#8 4) Block.reset) State.response = some (some .err)
    ∧ after (access (.read 0x06#8 4) Block.reset) State.response = some (some .err)
    ∧ after (access (.read 0x04#8 1) Block.reset) State.response = some (some .err)
    ∧ after (access (.read 0x14#8 4) Block.reset) State.response = some (some .err)
    ∧ after (access (.read 0x84#8 4) Block.reset) State.response = some (some .err)
    ∧ after (access (.read 0x80#8 4) Block.reset) State.response = some (some (.okData 0#32)) := by decide

/-- V-B2, V-B5, V-B8, V-B9: writes that get ERR and change nothing. -/
theorem test_bus_writes_refused :
    after (access (.write 0x04#8 4 1#32) comparedP1) (fun t => (t.response, t.blk)) = some (some .err, comparedP1)
    ∧ after (access (.write 0x00#8 2 0x2000#32) comparedP1) (fun t => (t.response, t.blk)) = some (some .err, comparedP1)
    ∧ after (access (.write 0x20#8 4 1#32) comparedP1) (fun t => (t.response, t.blk)) = some (some .err, comparedP1)
    ∧ after (access (.write 0x60#8 4 1#32) comparedP1) (fun t => (t.response, t.blk)) = some (some .err, comparedP1) := by
  decide

/-- V-M6, V-B11: a digest write clears CD and reads back. -/
theorem test_digest_write :
    after (access (.write 0x44#8 4 0#32) comparedP1) (fun t => [reads .status t, reads .csbits t])
      = some [some 0x00000001#32, some 0x00000003#32]
    ∧ after (access (.write 0x5C#8 4 0x12345678#32) Block.reset) (fun t => (t.response, reads (.digestW 7) t))
      = some (some .ok, some 0x12345678#32) := by decide

/-- R180: an access while reset is asserted. -/
theorem test_access_in_reset :
    after (step ({ onBlock Block.reset with rst := true }.offer (cmdWrite 0x20000001#32)))
      (fun t => (t.response, t.blk)) = some (some .err, Block.reset) := by decide

/-- withFetchWord: the very next step runs the table word. -/
theorem test_with_fetch_word :
    after (step (State.reset.withFetchWord 32 0x200007FF)) (fun t => [reads (.accW 0) t, reads .wcount t])
      = some [some 0xFFE00000#32, some 0x000B0001#32] := by decide

/-! ### Assembler lines, from 95_test_vectors.md (program P3 and the pseudo-instruction form of P1) -/

theorem test_assemble_load :
    assembleLine "LOAD 0,0,3 ; CMD writes".toList
      = some [.write 0#8 4 0x10000000#32, .write 0#8 4 0x20000000#32, .write 0#8 4 0x20000000#32,
          .write 0#8 4 0x20000003#32] := by decide

theorem test_assemble_lines :
    assembleLine "push 0x3FB".toList = some [.write 0#8 4 0x200003FB#32]
    ∧ assembleLine "SPLIT".toList = some [.write 0#8 4 0x30000000#32]
    ∧ assembleLine "WR DIGEST_W7, 0x28EC37BB".toList = some [.write 0x5C#8 4 0x28EC37BB#32]
    ∧ assembleLine "RD STATUS -> 0x00000007".toList = some [.read 0x04#8 4]
    ∧ assembleLine "RD 0x14".toList = some [.read 0x14#8 4]
    ∧ assembleLine "READENT 4".toList = some [.read 0x20#8 4, .read 0x24#8 4, .read 0x28#8 4, .read 0x2C#8 4]
    ∧ assembleLine "; a comment".toList = some [] := by decide

/-- The digest of P1: lines 20 to 27. -/
theorem test_assemble_setdig :
    assembleLine "SETDIG 374708fff7719dd5979ec875d56cd2286f6d3cf7ec317a3b25632aab28ec37bb".toList
      = some [.write 0x40#8 4 0x374708FF#32, .write 0x44#8 4 0xF7719DD5#32, .write 0x48#8 4 0x979EC875#32,
          .write 0x4C#8 4 0xD56CD228#32, .write 0x50#8 4 0x6F6D3CF7#32, .write 0x54#8 4 0xEC317A3B#32,
          .write 0x58#8 4 0x25632AAB#32, .write 0x5C#8 4 0x28EC37BB#32] := by decide

/-- R87: "An idx outside 0…2047 is an assembly error." R88: the ranges of LOAD and READENT. -/
theorem test_assemble_errors :
    assembleLine "PUSH 2048".toList = none ∧ assembleLine "PUSH".toList = none ∧ assembleLine "LOAD".toList = none
    ∧ assembleLine "READENT 9".toList = none ∧ assembleLine "JUMP 3".toList = none := by decide

/-! ### Reading a result (R13, R188): STATUS at the ends of P1, P2b, V-S3 and after reset -/

theorem test_outcomes :
    outcomeOf 0x00000007#32 = some .valid ∧ outcomeOf 0x00000003#32 = some .invalidChecksum
    ∧ outcomeOf 0x00000480#32 = some .invalidWordCount ∧ outcomeOf 0x00000000#32 = none := by decide

/-! ### Witnesses: states and operands that meet the hypotheses of each obligation

One theorem per obligation with hypotheses, named after it; the obligations not named here have none. -/

/-- The state whose next step is the host's write of the command's word. -/
def commandState (i : Instr) (b : Block) : State := (onBlock b).offer (cmdWrite (encode i))

/-- The state whose next step is a 4-byte write of v to DIGEST_W7. -/
def digestState (v : Word) (b : Block) : State := (onBlock b).offer (.access (.write 0x5C#8 4 v))

/-- A block whose buffer is empty keeps the block invariant if its flags and its count agree. -/
theorem inv_of_empty {b : Block} (hb : b.buf = 0#264) (h2 : b.cd = true → b.sd = true)
    (h3 : b.sd = true → b.w.toNat ∈ Config.legalCounts) (h4 : b.w.toNat ≤ 24) (h5 : ErrorsAgree b) : BlockInv b :=
  ⟨fun i _ _ => by rw [hb, bufBit_zero], h2, h3, h4, h5⟩

theorem inv_counted {w : BitVec 5} (h : w.toNat ≤ 24) : BlockInv (counted w false false) :=
  inv_of_empty rfl (by intro h; exact h) (fun h => Bool.noConfusion h) h (.inl ⟨rfl, rfl, rfl, rfl, rfl⟩)

theorem witness_DecodeOfEncodeIsTheCommand : (Instr.push 0#11).wf = true ∧ (Instr.push 2047#11).wf = true := by decide

theorem witness_EncodeOfDecodedIsTheWord : decode 0x200007FF#32 = .command (.push 2047#11) := by decide

theorem witness_OpcodeMapIsCompleteAndDisjoint :
    (⟨"PUSH", 0x20000000#32, 0xFFFFF800#32⟩ : OpcodeRow) ∈ opcodeRows
    ∧ 0x200007FF#32 &&& 0xFFFFF800#32 = 0x20000000#32 := by decide

/-- One word for each kind of illegal encoding, at the boundary. -/
theorem witness_IllegalWordSetsOnlyIllegal :
    State.reset.rst = false ∧ 5 ≤ ((0x50000000#32).extractLsb' 28 4).toNat ∧ (0x20000800#32).extractLsb' 11 17 ≠ 0#17
    ∧ (0x48000000#32).extractLsb' 11 17 ≠ 0#17
    ∧ (0x30000001#32).extractLsb' 28 4 ≠ 2#4 ∧ (0x30000001#32).extractLsb' 0 11 ≠ 0#11 := by decide

theorem witness_StepRunsTheDecodedCommand :
    (commandState (.push 2047#11) Block.reset).rst = false
    ∧ (commandState (.push 2047#11) Block.reset).pending = [.access (.write 0x00#8 4 0x200007FF#32)]
    ∧ decode 0x200007FF#32 = .command (.push 2047#11) ∧ (Instr.push 2047#11).wf = true := by decide

theorem witness_EveryStepAnswers : (onBlock (counted 24#5 true true)).blk.w.toNat ≤ 24 := by decide

theorem witness_NoAutonomousStep : (onBlock comparedP1).pending = [] := by decide

theorem witness_NopDoesNothing :
    State.reset.rst = false ∧ (0x00000001#32).extractLsb' 28 4 = 0#4 ∧ (0x00000001#32).extractLsb' 0 11 ≠ 0#11
    ∧ (0x08000000#32).extractLsb' 28 4 = 0#4 ∧ (0x08000000#32).extractLsb' 11 17 ≠ 0#17 := by decide

theorem witness_ClearAndResetLeaveTheResetBlock : 263 < 264 ∧ Reg.status ≠ .cmd ∧ Reg.accW 8 ≠ .cmd := by decide

/-- Both clauses, at both ends of the counts outside the buffer. -/
theorem witness_OnlyAnIndexOutsideTheBufferStops :
    (counted 25#5 false true).sd = false ∧ 24 < (counted 25#5 false true).w.toNat ∧ 24 < (counted 31#5 false false).w.toNat
    ∧ step (commandState (.push 0#11) (counted 25#5 false false)) = .fault .indexOutsideBuffer :=
  ⟨by decide, by decide, by decide, rfl⟩

theorem witness_AccessInResetGetsErr : ({ onBlock Block.reset with rst := true } : State).rst = true := by decide

/-- An empty buffer, and the last index, with every error flag set. -/
theorem witness_PushAppendsTheIndex :
    Block.reset.sd = false ∧ Block.reset.w.toNat < 24
    ∧ ({ counted 23#5 false false with eIll := true, eSeq := true, eOvf := true, eCnt := true } : Block).sd = false
    ∧ (counted 23#5 false false).w.toNat < 24 := by decide

theorem witness_PushAfterSplitIsRefused : (onBlock sealedP1).blk.sd = true ∧ (counted 24#5 true false).sd = true := by decide

theorem witness_PushIntoFullBufferOverflows :
    (counted 24#5 false false).sd = false ∧ (counted 24#5 false false).w.toNat = 24 := by decide

theorem witness_SplitSealsALegalCount :
    (∀ n ∈ [12, 15, 18, 21, 24], (counted (BitVec.ofNat 5 n) false false).w.toNat ∈ [12, 15, 18, 21, 24])
    ∧ 7 < csV (counted 24#5 true false) ∧ 31 < entV (counted 24#5 true false) / 8 ∧ 7 < 8
    ∧ 3 < csV (counted 12#5 true false) ∧ csV (counted 12#5 true false) ≤ 4 := by decide

theorem witness_SplitOnIllegalCountReportsCount :
    ∀ n ∈ [0, 3, 9, 11, 13, 23, 25], (counted (BitVec.ofNat 5 n) false false).w.toNat ∉ [12, 15, 18, 21, 24]
      ∧ (counted (BitVec.ofNat 5 n) false false).sd = false ∧ (counted (BitVec.ofNat 5 n) false false).cd = false := by decide

theorem witness_RepeatedSplitChangesNothing :
    comparedP1.sd = true ∧ comparedP1.w.toNat ∈ [12, 15, 18, 21, 24] := by decide

/-- The third clause: two digests that agree on the first four bits alone. -/
theorem witness_CompareMatchesBitForBit :
    (onBlock sealedP1).blk.sd = true ∧ comparedP1.cd = true
    ∧ ∀ k, k < csV comparedP1 → (comparedP1.dig.set 0 0x3FFFFFFF#32)[0].getLsbD (31 - k) = comparedP1.dig[0].getLsbD (31 - k) := by
  decide

theorem witness_CompareBeforeSplitIsRefused : (onBlock Block.reset).blk.sd = false ∧ loadedP1.sd = false := by decide

theorem witness_RepeatedCompareChangesNothing :
    comparedP1.cd = true ∧ comparedP1.sd = true ∧ (onBlock comparedP1).rst = false ∧ (7 : Fin 8).val = 7 := by decide

/-- A command that succeeds and one that raises its error, for each; PUSH in both its errors; a write and a read. -/
theorem witness_RepetitionIsIdempotent :
    (∃ t, exec .nop (onBlock comparedP1) = .next t) ∧ (∃ t, exec .clear (onBlock comparedP1) = .next t)
    ∧ (∃ t, exec .split (onBlock loadedP1) = .next t) ∧ (∃ t, exec .split (onBlock Block.reset) = .next t)
    ∧ (∃ t, exec .compare (onBlock sealedP1) = .next t) ∧ (∃ t, exec .compare (onBlock Block.reset) = .next t)
    ∧ (sealedP1.sd = true ∧ ∃ t, exec (.push 0#11) (onBlock sealedP1) = .next t)
    ∧ ((counted 24#5 false false).w.toNat = 24 ∧ ∃ t, exec (.push 0#11) (onBlock (counted 24#5 false false)) = .next t)
    ∧ (∃ t, step (digestState 1#32 comparedP1) = .next t)
    ∧ (∃ t, step ((onBlock comparedP1).offer (.access (.read 0x04#8 4))) = .next t) :=
  ⟨⟨_, rfl⟩, ⟨_, rfl⟩, ⟨_, rfl⟩, ⟨_, rfl⟩, ⟨_, rfl⟩, ⟨_, rfl⟩, ⟨rfl, _, rfl⟩, ⟨rfl, _, rfl⟩, ⟨_, rfl⟩, ⟨_, rfl⟩⟩

theorem witness_CommandsWriteOnlyTheirElements :
    (∃ t, exec .nop (onBlock comparedP1) = .next t) ∧ (∃ t, exec .clear (onBlock comparedP1) = .next t)
    ∧ (∃ t, exec (.push 2047#11) (onBlock (counted 23#5 false false)) = .next t)
    ∧ (∃ t, exec (.push 2047#11) (onBlock sealedP1) = .next t)
    ∧ (∃ t, exec .split (onBlock loadedP1) = .next t) ∧ (∃ t, exec .split (onBlock Block.reset) = .next t)
    ∧ (∃ t, exec .compare (onBlock sealedP1) = .next t) ∧ (∃ t, exec .compare (onBlock Block.reset) = .next t) :=
  ⟨⟨_, rfl⟩, ⟨_, rfl⟩, ⟨_, rfl⟩, ⟨_, rfl⟩, ⟨_, rfl⟩, ⟨_, rfl⟩, ⟨_, rfl⟩, ⟨_, rfl⟩⟩

theorem witness_CommandErrorSetsItsFlagAndCode :
    State.reset.rst = false ∧ ∃ t, step (State.reset.offer (cmdWrite 0x50000000#32)) = .next t := ⟨rfl, _, rfl⟩

theorem witness_ErrorPriority :
    State.reset.rst = false ∧ (2 : Nat) ≠ 4 ∧ (counted 24#5 true false).sd = true ∧ (counted 24#5 true false).w = 24#5 := by
  decide

/-- Every clause at the boundaries of its offsets: the bad ones, CMD, the read-only ones, and the ones that are answered. -/
theorem witness_BusErrorsAreExactlyTheListed :
    let bad (n size : Nat) : Prop := size ≠ 4 ∨ n % 4 ≠ 0 ∨ (0x14 ≤ n ∧ n ≤ 0x1F) ∨ 0x84 ≤ n
    let readOnly (n : Nat) : Prop :=
      n = 0x04 ∨ n = 0x08 ∨ n = 0x0C ∨ n = 0x10 ∨ (0x20 ≤ n ∧ n < 0x40) ∨ (0x60 ≤ n ∧ n < 0x84)
    State.reset.rst = false ∧ bad 0x00 2 ∧ bad 0x01 4 ∧ bad 0x14 4 ∧ bad 0x1C 4 ∧ bad 0x84 4 ∧ bad 0xFC 4
    ∧ ¬ (bad 0x04 4 ∨ 0x04 = 0x00) ∧ ¬ (bad 0x10 4 ∨ 0x10 = 0x00) ∧ ¬ (bad 0x20 4 ∨ 0x20 = 0x00)
    ∧ ¬ (bad 0x80 4 ∨ 0x80 = 0x00) ∧ readOnly 0x04 ∧ readOnly 0x10 ∧ readOnly 0x20 ∧ readOnly 0x3C ∧ readOnly 0x60
    ∧ readOnly 0x80 ∧ ¬ (bad 0x00 4 ∨ readOnly 0x00) ∧ ¬ (bad 0x40 4 ∨ readOnly 0x40)
    ∧ ¬ (bad 0x5C 4 ∨ readOnly 0x5C)
    ∧ (∃ t, step (State.reset.offer (.access (.write 0x00#8 4 0x20000001#32))) = .next t)
    ∧ (∃ t, step (State.reset.offer (.access (.write 0x5C#8 4 1#32))) = .next t) := by
  refine ⟨rfl, ?_, ?_, ?_, ?_, ?_, ?_, ?_, ?_, ?_, ?_, ?_, ?_, ?_, ?_, ?_, ?_, ?_, ?_, ?_, ⟨_, rfl⟩, ⟨_, rfl⟩⟩ <;> decide

theorem witness_DigestWriteStoresAndClearsCompare : (onBlock comparedP1).rst = false ∧ (7 : Fin 8).val = 7 := by decide

/-- Both results of a comparison. -/
theorem witness_StatusReadsItsFields :
    (onBlock comparedP1).rst = false ∧ comparedP1.sd = true ∧ comparedP1.cd = true ∧ matchV comparedP1 = true
    ∧ matchV { sealedP1 with cd := true } = false := by decide

theorem witness_WcountReadsCountAndLength : (onBlock (counted 24#5 false false)).rst = false := by decide

theorem witness_ParamsReadsTheSizes :
    (onBlock Block.reset).rst = false ∧ Block.reset.sd = false
    ∧ ∀ n ∈ [12, 15, 18, 21, 24], (counted (BitVec.ofNat 5 n) true false).sd = true
        ∧ (counted (BitVec.ofNat 5 n) true false).w.toNat = n := by decide

theorem witness_CsbitsReadsBothSides :
    (onBlock comparedP1).rst = false ∧ Block.reset.sd = false ∧ Block.reset.cd = false ∧ comparedP1.sd = true
    ∧ comparedP1.cd = true ∧ 3 < csV comparedP1 ∧ csV comparedP1 ≤ 4 ∧ 7 < csV (counted 24#5 true true) := by decide

/-- The last entropy byte of the largest count, and the first register above the entropy of the smallest. -/
theorem witness_EntropyRegistersReadTheEntropyBits :
    (onBlock (counted 24#5 true false)).rst = false ∧ 7 < 8 ∧ (counted 24#5 true false).sd = true
    ∧ 31 < entV (counted 24#5 true false) / 8 ∧ 31 / 4 = 7 ∧ entV (counted 12#5 true false) ≤ 32 * 4 := by decide

/-- The first position no word has written, at W = 23. -/
theorem witness_AccRegistersReadTheBuffer :
    (onBlock (counted 23#5 false false)).rst = false ∧ 8 < 9 ∧ BlockInv (counted 23#5 false false)
    ∧ 11 * (counted 23#5 false false).w.toNat ≤ 32 * 7 + 29 :=
  ⟨rfl, by decide, inv_counted (by decide), by decide⟩

theorem witness_DigestRegistersReadTheDigest : (onBlock comparedP1).rst = false ∧ (31 : Fin 32).val / 4 = 7 ∧ 7 < 8 := by
  decide

/-- A command at the largest count that takes an index, and an access in reset. -/
theorem witness_StepKeepsTheInvariant :
    (Inv (commandState (.push 2047#11) (counted 23#5 false false))
      ∧ ∃ t, step (commandState (.push 2047#11) (counted 23#5 false false)) = .next t)
    ∧ (Inv ({ onBlock Block.reset with rst := true }.offer (cmdWrite 0#32))
      ∧ ∃ t, step ({ onBlock Block.reset with rst := true }.offer (cmdWrite 0#32)) = .next t) :=
  ⟨⟨⟨inv_counted (by decide), fun h => absurd h (by decide)⟩, _, rfl⟩,
    ⟨⟨inv_counted (w := 0#5) (by decide), fun _ => rfl⟩, _, rfl⟩⟩

/-- SD goes up on SPLIT, goes down on CLEAR and on reset, and stays up on a refused PUSH. -/
theorem witness_SealIsHeldUntilClear :
    (∃ t, step (commandState .split loadedP1) = .next t ∧ loadedP1.sd = false ∧ t.blk.sd = true
      ∧ TakesCommand (commandState .split loadedP1) .split ∧ loadedP1.w.toNat ∈ [12, 15, 18, 21, 24])
    ∧ (∃ t, step (commandState .clear sealedP1) = .next t ∧ sealedP1.sd = true ∧ t.blk.sd = false
      ∧ TakesClearOrReset (commandState .clear sealedP1))
    ∧ (∃ t, step ((onBlock sealedP1).offer .resetAssert) = .next t ∧ t.blk.sd = false
      ∧ TakesClearOrReset ((onBlock sealedP1).offer .resetAssert))
    ∧ (∃ t, step (commandState (.push 1#11) sealedP1) = .next t ∧ t.blk.sd = true
      ∧ TakesCommand (commandState (.push 1#11) sealedP1) (.push 1#11)) :=
  ⟨⟨_, rfl, rfl, rfl, ⟨rfl, _, rfl⟩, by decide⟩, ⟨_, rfl, rfl, rfl, .inl ⟨rfl, _, rfl⟩⟩, ⟨_, rfl, rfl, .inr ⟨_, rfl⟩⟩,
    ⟨_, rfl, rfl, rfl, _, rfl⟩⟩

/-- CD goes up on COMPARE, goes down on CLEAR, on reset and on a DIGEST_W7 write, and stays up on NOP. -/
theorem witness_CompareResultIsNeverStale :
    (∃ t, step (commandState .compare sealedP1) = .next t ∧ sealedP1.cd = false ∧ t.blk.cd = true
      ∧ TakesCommand (commandState .compare sealedP1) .compare ∧ sealedP1.sd = true)
    ∧ (∃ t, step (commandState .clear comparedP1) = .next t ∧ comparedP1.cd = true ∧ t.blk.cd = false
      ∧ TakesClearOrReset (commandState .clear comparedP1))
    ∧ (∃ t, step (digestState 5#32 comparedP1) = .next t ∧ t.blk.cd = false
      ∧ TakesDigestWrite (digestState 5#32 comparedP1))
    ∧ (∃ t, step (commandState .nop comparedP1) = .next t ∧ t.blk.cd = true) :=
  ⟨⟨_, rfl, rfl, rfl, ⟨rfl, _, rfl⟩, rfl⟩, ⟨_, rfl, rfl, rfl, .inl ⟨rfl, _, rfl⟩⟩, ⟨_, rfl, rfl, rfl, 7, 5#32, _, rfl⟩,
    ⟨_, rfl, rfl⟩⟩

/-- A step that is neither CLEAR nor reset with all four flags set, and a CLEAR. -/
theorem witness_ErrorFlagsAreSticky :
    let b : Block := { Block.reset with eIll := true, eSeq := true, eOvf := true, eCnt := true, lastErr := 4#4 }
    (∃ t, step (commandState .nop b) = .next t ∧ ¬ TakesClearOrReset (commandState .nop b) ∧ b.eIll = true
      ∧ b.eSeq = true ∧ b.eOvf = true ∧ b.eCnt = true)
    ∧ (∃ t, step (commandState .clear b) = .next t ∧ TakesClearOrReset (commandState .clear b)) := by
  refine ⟨⟨_, rfl, ?_, rfl, rfl, rfl, rfl⟩, ⟨_, rfl, .inl ⟨rfl, _, rfl⟩⟩⟩
  rintro (⟨_, _, h⟩ | ⟨_, h⟩)
  · exact absurd (List.cons.inj h).1 (by decide)
  · exact absurd (List.cons.inj h).1 (by decide)

/-- An error that replaces the code, and the largest code kept. -/
theorem witness_LastErrorIsTheLatestCode :
    let b : Block := { Block.reset with eCnt := true, lastErr := 4#4 }
    (∃ t, step (commandState .compare b) = .next t ∧ t.blk.lastErr = 2#4) ∧ b.lastErr.toNat ≤ 4
    ∧ (∃ t, step (commandState .nop b) = .next t ∧ t.blk.lastErr = 4#4) := ⟨⟨_, rfl, rfl⟩, by decide, ⟨_, rfl, rfl⟩⟩

theorem witness_WordCountWriters :
    (∃ t, step (commandState (.push 0#11) (counted 23#5 false false)) = .next t ∧ t.blk.w = 24#5)
    ∧ (∃ t, step (commandState (.push 0#11) (counted 24#5 false false)) = .next t ∧ t.blk.w = 24#5)
    ∧ (∃ t, step (commandState .clear (counted 24#5 true true)) = .next t
      ∧ TakesClearOrReset (commandState .clear (counted 24#5 true true))) :=
  ⟨⟨_, rfl, rfl⟩, ⟨_, rfl, rfl⟩, ⟨_, rfl, .inl ⟨rfl, _, rfl⟩⟩⟩

theorem witness_BufferAndDigestWriters :
    (∃ t, step (commandState (.push 2047#11) Block.reset) = .next t)
    ∧ (∃ t, step (digestState 5#32 Block.reset) = .next t) := ⟨⟨_, rfl⟩, ⟨_, rfl⟩⟩

/-- A refused PUSH after a comparison: both flags stay. -/
theorem witness_DerivedValuesAreAsIfLatched :
    ∃ t, step (commandState (.push 2047#11) comparedP1) = .next t ∧ comparedP1.sd = true ∧ t.blk.sd = true
      ∧ comparedP1.cd = true ∧ t.blk.cd = true := ⟨_, rfl, rfl, rfl, rfl, rfl⟩

/-- A state with events pending. -/
def withPending (es : List Event) : State := { State.reset with pending := es }

/-- No index, and 24 of them, with an event after the last. -/
theorem witness_PushSequenceIsPack :
    ∀ is ∈ [[], List.replicate 24 2047#11],
      (withPending (commandEvents (loadCommands is) ++ [Event.resetAssert])).rst = false ∧ is.length ≤ 24
      ∧ (withPending (commandEvents (loadCommands is) ++ [Event.resetAssert])).pending
        = commandEvents (loadCommands is) ++ [Event.resetAssert] :=
  fun is h => ⟨rfl, by revert is; decide, rfl⟩

/-- Both clauses; the second with two different one-word phrases. -/
theorem witness_AccumulatorLaws :
    let s (i : WordIndex) : State := withPending (commandEvents (loadCommands [i]) ++ [])
    (s 1#11).rst = false ∧ (s 1#11).pending = commandEvents (loadCommands [1#11]) ++ []
    ∧ (s 2#11).rst = false ∧ (s 2#11).pending = commandEvents (loadCommands [2#11]) ++ []
    ∧ [1#11].length ≤ 24 ∧ [2#11].length = [1#11].length
    ∧ (∃ t, Host.Core.run Sys2Proof.core ([1#11].length + 1) (s 1#11) = .next t)
    ∧ (∃ t, Host.Core.run Sys2Proof.core ([1#11].length + 1) (s 2#11) = .next t) :=
  ⟨rfl, rfl, rfl, rfl, by decide, rfl, ⟨_, rfl⟩, ⟨_, rfl⟩⟩

/-- Each legal count. -/
theorem witness_ChecksumIsTheTailOfTheLastIndex :
    ∀ n ∈ [12, 15, 18, 21, 24],
      List.replicate n 3#11 ≠ [] ∧ (List.replicate n 3#11).length ∈ [12, 15, 18, 21, 24]
      ∧ (withPending (commandEvents (loadCommands (List.replicate n 3#11) ++ [.split]) ++ [])).rst = false
      ∧ (withPending (commandEvents (loadCommands (List.replicate n 3#11) ++ [.split]) ++ [])).pending
        = commandEvents (loadCommands (List.replicate n 3#11) ++ [.split]) ++ [] :=
  fun n h => ⟨by revert n; decide, by revert n; decide, rfl, rfl⟩

/-- Each legal count. -/
theorem witness_ComparatorLaw :
    ∀ n ∈ [12, 15, 18, 21, 24],
      let es := requestEvents ((AsmLine.load (List.replicate n 3#11)).expand ++ (AsmLine.command .split).expand
        ++ (AsmLine.setDig (3#256 <<< 252)).expand ++ (AsmLine.command .compare).expand) ++ []
      List.replicate n 3#11 ≠ [] ∧ (List.replicate n 3#11).length ∈ [12, 15, 18, 21, 24]
      ∧ (withPending es).rst = false ∧ (withPending es).pending = es :=
  fun n h => ⟨by revert n; decide, by revert n; decide, rfl, rfl⟩

theorem witness_ProtocolRefinesTheSource : (onBlock comparedP1).rst = false := by decide

theorem witness_PseudoInstructionsExpandAsStated : 7 < 8 ∧ 31 < 32 ∧ (AsmLine.readEnt 8).wf = true := by decide

/-- The addresses just below and just above a window. -/
theorem witness_WindowDecodesItsOffsets :
    (0x0FFF < 0x1000 ∨ 0x1000 + 0xFF < 0x0FFF) ∧ (0x1100 < 0x1000 ∨ 0x1000 + 0xFF < 0x1100) := by decide

end Sys2Proof.Tests
end

namespace Sys2Proof.Proofs.Scope

open Sys2Proof.Machine

/-- Settles O8: with an empty event list a step takes its idle branch (`step_idle`), as R6 and log entry 1 say. -/
theorem noAutonomousStep : Obligations.NoAutonomousStep := by
  unfold Obligations.NoAutonomousStep
  intro s hpending
  exact step_idle hpending

end Sys2Proof.Proofs.Scope

/-! ### What one step does to the block, by the command, write or reset that it takes

`step_blk_cases` names the word on the bus. `BlockChange` says the same in the terms of the claims of 10_state.md: a word
that decodes to a command is that command's encoding, so the step takes the command. -/

namespace Sys2Proof.Proofs.BlockChanges

open Sys2Proof.Machine

/-- A word that decodes to a command is the command's encoding: the fields of both agree (R81, R84). -/
theorem encode_of_decode {v : Word} {i : Instr} (h : decode v = .command i) : encode i = v := by
  obtain ⟨hop, hrsv, hidx⟩ := fields_of_decode h
  calc encode i = opField v ++ (rsvField v ++ idxField v) := by rw [hop, hrsv, hidx]; rfl
    _ = v := (word_eq_fields v).symm

@[simp] theorem decode_encode (i : Instr) : decode (encode i) = .command i := by
  cases i <;> simp [decode, opOf, idxOf]

/-- A taken command word that decodes to a command is a taken command. -/
theorem takesCommand_of_decode {s : State} {v : Word} {i : Instr} (hrst : s.rst = false) (ht : Takes s (cmdWrite v))
    (hd : decode v = .command i) : TakesCommand s i :=
  ⟨hrst, (encode_of_decode hd).symm ▸ ht⟩

/-- What a step can do to the block, with the reason: `b` is the block after a step from `s`. -/
inductive BlockChange (s : State) (b : Block) : Prop where
  | unchanged (hb : b = s.blk)
  | cleared (htakes : TakesClearOrReset s) (hb : b = Block.reset)
  | digestWritten (htakes : TakesDigestWrite s) (j : Fin 8) (v : Word) (hb : b = s.blk.writeDigest j v)
  | appended (idx : WordIndex) (htakes : TakesCommand s (.push idx)) (hsd : s.blk.sd = false)
      (hw : s.blk.w.toNat < 24) (hb : b = s.blk.append idx)
  | sealed (htakes : TakesCommand s .split) (hlegal : legalCount s.blk.w = true) (hb : b = s.blk.seal)
  | compared (htakes : TakesCommand s .compare) (hsd : s.blk.sd = true) (hb : b = s.blk.markCompared)
  | raised (e : CmdErr) (v : Word) (hrst : s.rst = false) (htakes : Takes s (cmdWrite v)) (hb : b = s.blk.raise e)

/-- A command that is taken changes the block in one of the ways of `BlockChange`. -/
theorem blockChange_of_command {s : State} {b : Block} {i : Instr} (ht : TakesCommand s i)
    (he : CommandEffect i s.blk b) : BlockChange s b := by
  rcases he with ⟨-, hb⟩ | ⟨rfl, hb⟩ | ⟨idx, rfl, hsd, hw, hb⟩ | ⟨rfl, hl, hb⟩ | ⟨rfl, hsd, hb⟩ | ⟨e, -, hb⟩
  · exact .unchanged hb
  · exact .cleared (.inl ht) hb
  · exact .appended idx ht hsd hw hb
  · exact .sealed ht hl hb
  · exact .compared ht hsd hb
  · exact .raised e _ ht.1 ht.2 hb

theorem blockChange_of_step {s t : State} (h : step s = .next t) : BlockChange s t.blk := by
  rcases step_blk_cases h with hb | ⟨ht, hb⟩ | ⟨hrst, j, v, ht, hb⟩ | ⟨hrst, v, i, ht, hd, he⟩
    | ⟨hrst, v, -, ht, -, hb⟩
  · exact .unchanged hb
  · exact .cleared (.inr ht) hb
  · exact .digestWritten ⟨hrst, j, v, ht⟩ j v hb
  · exact blockChange_of_command (takesCommand_of_decode hrst ht hd) he
  · exact .raised .illegal v hrst ht hb

/-! What a step does when it is known what it takes. -/

/-- A step that takes a command has that command's effect. -/
theorem commandEffect_of_takes {s t : State} {i : Instr} (ht : TakesCommand s i) (h : step s = .next t) :
    CommandEffect i s.blk t.blk := by
  obtain ⟨hrst, rest, hp⟩ := ht
  rw [step_takes hp, takeEvent_cmdWrite (by exact hrst), execute_command (decode_encode i)] at h
  exact (exec_cases h).2

/-- The effect of CLEAR (R101). -/
theorem commandEffect_clear {b b' : Block} (h : CommandEffect .clear b b') : b' = Block.reset := by
  simpa [CommandEffect, Raises] using h

/-- The effect of SPLIT on a legal count (R123). -/
theorem commandEffect_split {b b' : Block} (hl : legalCount b.w = true) (h : CommandEffect .split b b') :
    b' = b.seal := by
  simpa [CommandEffect, Raises, hl] using h

/-- The effect of COMPARE on a sealed block (R136). -/
theorem commandEffect_compare {b b' : Block} (hsd : b.sd = true) (h : CommandEffect .compare b b') :
    b' = b.markCompared := by
  simpa [CommandEffect, Raises, hsd] using h

/-- The effect of PUSH on a sealed block (R112). -/
theorem commandEffect_push_sealed {b b' : Block} {idx : WordIndex} (hsd : b.sd = true)
    (h : CommandEffect (.push idx) b b') : b' = b.raise .seq := by
  simpa [CommandEffect, Raises, hsd] using h

theorem blk_of_clearOrReset {s t : State} (ht : TakesClearOrReset s) (h : step s = .next t) : t.blk = Block.reset := by
  rcases ht with ht | ⟨rest, hp⟩
  · exact commandEffect_clear (commandEffect_of_takes ht h)
  · rw [step_takes hp] at h
    cases h
    rfl

theorem blk_of_digestWrite {s t : State} (ht : TakesDigestWrite s) (h : step s = .next t) :
    ∃ j v, t.blk = s.blk.writeDigest j v := by
  obtain ⟨hrst, j, v, rest, hp⟩ := ht
  rw [step_takes hp, takeEvent_write (by exact hrst)] at h
  cases (memWrite_digest _ j v).symm.trans h
  exact ⟨j, v, rfl⟩

end Sys2Proof.Proofs.BlockChanges

/-! ### The invariant of 10_state.md R30 -/

namespace Sys2Proof.Proofs.Invariant

open Sys2Proof.Machine Sys2Proof.Proofs.BlockChanges

theorem blockInv_reset : BlockInv Block.reset where
  unusedZero i _ _ := bufBit_zero i
  comparedSealed h := by cases h
  sealedLegal h := by cases h
  countBound := by decide
  errors := .inl ⟨rfl, rfl, rfl, rfl, rfl⟩

/-- An error's code names the flag it sets (R151). -/
theorem errorsAgree_raise (b : Block) (e : CmdErr) : ErrorsAgree (b.raise e) := by
  cases e <;> simp [ErrorsAgree, CmdErr.code]

theorem blockInv_raise {b : Block} (h : BlockInv b) (e : CmdErr) : BlockInv (b.raise e) where
  unusedZero := by simpa using h.unusedZero
  comparedSealed := by simpa using h.comparedSealed
  sealedLegal := by simpa using h.sealedLegal
  countBound := by simpa using h.countBound
  errors := errorsAgree_raise b e

theorem blockInv_writeDigest {b : Block} (h : BlockInv b) (j : Fin 8) (v : Word) : BlockInv (b.writeDigest j v) where
  unusedZero := h.unusedZero
  comparedSealed hcd := by cases hcd
  sealedLegal := h.sealedLegal
  countBound := h.countBound
  errors := h.errors

theorem blockInv_seal {b : Block} (h : BlockInv b) (hl : legalCount b.w = true) : BlockInv b.seal where
  unusedZero := h.unusedZero
  comparedSealed _ := rfl
  sealedLegal _ := (legalCount_iff b.w).mp hl
  countBound := h.countBound
  errors := h.errors

theorem blockInv_markCompared {b : Block} (h : BlockInv b) (hsd : b.sd = true) : BlockInv b.markCompared where
  unusedZero := h.unusedZero
  comparedSealed _ := hsd
  sealedLegal := h.sealedLegal
  countBound := h.countBound
  errors := h.errors

/-- Below 24 the count goes up by one without wrapping (R111). -/
theorem append_w_toNat {b : Block} (idx : WordIndex) (hw : b.w.toNat < 24) :
    (b.append idx).w.toNat = b.w.toNat + 1 := by
  rw [Block.append_w]
  bv_omega

/-- PUSH writes below the new LEN, so the bits from there on are as before: 0 (INV1). -/
theorem blockInv_append {b : Block} (h : BlockInv b) (idx : WordIndex) (hsd : b.sd = false) (hw : b.w.toNat < 24) :
    BlockInv (b.append idx) where
  unusedZero i hlen hi := by
    rw [append_w_toNat idx hw] at hlen
    rw [Block.append_buf, bufBit_writeIndex _ (by omega) _ hi, if_neg (by omega)]
    exact h.unusedZero i (by omega) hi
  comparedSealed := h.comparedSealed
  sealedLegal hs := by simp [hsd] at hs
  countBound := by rw [append_w_toNat idx hw]; omega
  errors := h.errors

theorem blockInv_of_blockChange {s : State} {b : Block} (h : BlockInv s.blk) (hc : BlockChange s b) : BlockInv b := by
  cases hc with
  | unchanged hb => exact hb ▸ h
  | cleared _ hb => exact hb ▸ blockInv_reset
  | digestWritten _ j v hb => exact hb ▸ blockInv_writeDigest h j v
  | appended idx _ hsd hw hb => exact hb ▸ blockInv_append h idx hsd hw
  | sealed _ hl hb => exact hb ▸ blockInv_seal h hl
  | compared _ hsd hb => exact hb ▸ blockInv_markCompared h hsd
  | raised e _ _ _ hb => exact hb ▸ blockInv_raise h e

/-- The reset input is up after a step only if the step raised it, or if it was up and the block was left alone (R180). -/
theorem step_inReset {s t : State} (h : step s = .next t) (hrst : t.rst = true) :
    t.blk = Block.reset ∨ (s.rst = true ∧ t.blk = s.blk) := by
  rcases step_cases h with ⟨-, rfl⟩ | ⟨e, rest, -, -, ⟨-, hb, -⟩ | ⟨-, -, hr, -⟩ | ⟨r, -, hr, he⟩⟩
  · exact .inr ⟨hrst, rfl⟩
  · exact .inl hb
  · rw [hr] at hrst
    cases hrst
  · have hs : s.rst = true := hr.symm.trans hrst
    rcases he with ⟨hb, -⟩ | ⟨hs', -⟩
    · exact .inr ⟨hs, hb⟩
    · rw [hs] at hs'
      cases hs'

/-- Settles O36: each change a step can make to the block keeps R30 (`blockInv_of_blockChange`), and while reset is
asserted the block is left at its reset values. -/
theorem stepKeepsTheInvariant : Obligations.StepKeepsTheInvariant := by
  unfold Obligations.StepKeepsTheInvariant
  intro s t hinv h
  refine ⟨blockInv_of_blockChange hinv.block (blockChange_of_step h), fun hrst => ?_⟩
  rcases step_inReset h hrst with hb | ⟨hs, hb⟩
  · exact hb
  · exact hb.trans (hinv.inReset hs)

/-- Settles O35: the reset block meets R30, and reset is released in State.reset. -/
theorem resetMeetsTheInvariant : Obligations.ResetMeetsTheInvariant :=
  ⟨blockInv_reset, fun _ => rfl⟩

end Sys2Proof.Proofs.Invariant

/-! ### Who writes which element (10_state.md R23 to R29, R42) -/

namespace Sys2Proof.Proofs.Writers

open Sys2Proof.Machine Sys2Proof.Proofs.BlockChanges Sys2Proof.Proofs.Invariant

/-- PUSH with SD = 0 and a count above 24 stops with its fault (93_implementation_defined.md I3). -/
theorem exec_push_fault (idx : WordIndex) {s : State} (hsd : s.blk.sd = false) (hw : 24 < s.blk.w.toNat) :
    exec (.push idx) s = .fault .indexOutsideBuffer := by
  have h24 : s.blk.w ≠ 24#5 := by bv_omega
  have hout : 264 < 11 * s.blk.w.toNat + 11 := by omega
  simp [exec, execPush, appendIndex, hsd, h24, hout]

/-- A step stops only at a PUSH outside the buffer. -/
theorem step_fault {s : State} {f : Fault} (h : step s = .fault f) :
    s.blk.sd = false ∧ 24 < s.blk.w.toNat ∧ ∃ idx, TakesCommand s (.push idx) := by
  cases hp : s.pending with
  | nil => rw [step_idle hp] at h; cases h
  | cons e rest =>
    rw [step_takes hp] at h
    cases e with
    | resetAssert => cases h
    | resetRelease => cases h
    | access r =>
      obtain ⟨hrst, hsd, hw, v, idx, rfl, hd⟩ := serve_stop.2 f h
      exact ⟨hsd, hw, idx, takesCommand_of_decode hrst ⟨rest, hp⟩ hd⟩

/-- Settles O11: the append's own bound check is the one source of a fault. -/
theorem onlyAnIndexOutsideTheBufferStops : Obligations.OnlyAnIndexOutsideTheBufferStops :=
  ⟨fun idx _ hsd hw => exec_push_fault idx hsd hw, fun _ _ h => step_fault h⟩

/-- Settles O23: the five effects and the raise of an error, element by element (`exec_cases`). -/
theorem commandsWriteOnlyTheirElements : Obligations.CommandsWriteOnlyTheirElements := by
  unfold Obligations.CommandsWriteOnlyTheirElements
  intro i s t h
  obtain ⟨ht, he⟩ := exec_cases h
  refine ⟨by rw [ht]; rfl, by rw [ht]; rfl, by rw [ht]; rfl, ?_⟩
  rcases he with ⟨rfl, hb⟩ | ⟨rfl, hb⟩ | ⟨idx, rfl, -, -, hb⟩ | ⟨rfl, -, hb⟩ | ⟨rfl, -, hb⟩
    | ⟨e, ⟨idx, rfl, rfl, -⟩ | ⟨idx, rfl, rfl, -⟩ | ⟨rfl, rfl, -⟩ | ⟨rfl, rfl, -⟩, hb⟩
  all_goals simp [hb, readReg, accWord, wcountWord, lenV]

/-- While SD stays 1, no step changes BUF or W: PUSH and the clearing steps are the only ones that could (R25). -/
theorem sealed_frame {s t : State} (h : step s = .next t) (hs : s.blk.sd = true) (ht : t.blk.sd = true) :
    t.blk.buf = s.blk.buf ∧ t.blk.w = s.blk.w := by
  cases blockChange_of_step h with
  | cleared _ hb => simp [hb] at ht
  | appended _ _ hsd _ _ => simp [hsd] at hs
  | unchanged hb | digestWritten _ _ _ hb | sealed _ _ hb | compared _ _ hb | raised _ _ _ _ hb => simp [hb]

/-- SD goes up only by a SPLIT on a legal count. -/
theorem split_of_sealed {s t : State} (h : step s = .next t) (hs : s.blk.sd = false) (ht : t.blk.sd = true) :
    TakesCommand s .split ∧ legalCount s.blk.w = true := by
  cases blockChange_of_step h with
  | sealed htakes hl _ => exact ⟨htakes, hl⟩
  | unchanged hb | cleared _ hb | digestWritten _ _ _ hb | appended _ _ _ _ hb | compared _ _ hb
  | raised _ _ _ _ hb => simp [hb, hs] at ht

/-- SD goes down only by CLEAR or reset. -/
theorem clearOrReset_of_unsealed {s t : State} (h : step s = .next t) (hs : s.blk.sd = true)
    (ht : t.blk.sd = false) : TakesClearOrReset s := by
  cases blockChange_of_step h with
  | cleared htakes _ => exact htakes
  | unchanged hb | digestWritten _ _ _ hb | appended _ _ _ _ hb | sealed _ _ hb | compared _ _ hb
  | raised _ _ _ _ hb => simp [hb, hs] at ht

/-- Settles O37: who writes SD is read off the step's changes, and CLEAR, reset, SPLIT and PUSH off their own effects. -/
theorem sealIsHeldUntilClear : Obligations.SealIsHeldUntilClear := by
  unfold Obligations.SealIsHeldUntilClear
  intro s t h
  refine ⟨fun hs ht => ?_, fun htakes hw => ?_, clearOrReset_of_unsealed h, fun htakes => ?_, sealed_frame h,
    fun idx hs htakes => ?_⟩
  · obtain ⟨htakes, hl⟩ := split_of_sealed h hs ht
    exact ⟨htakes, (legalCount_iff _).mp hl⟩
  · rw [commandEffect_split ((legalCount_iff _).mpr hw) (commandEffect_of_takes htakes h)]
    rfl
  · rw [blk_of_clearOrReset htakes h]
    rfl
  · exact commandEffect_push_sealed hs (commandEffect_of_takes htakes h)

/-- CD goes up only by a COMPARE on a sealed block. -/
theorem compare_of_compared {s t : State} (h : step s = .next t) (hs : s.blk.cd = false) (ht : t.blk.cd = true) :
    TakesCommand s .compare ∧ s.blk.sd = true := by
  cases blockChange_of_step h with
  | compared htakes hsd _ => exact ⟨htakes, hsd⟩
  | unchanged hb | cleared _ hb | digestWritten _ _ _ hb | appended _ _ _ _ hb | sealed _ _ hb
  | raised _ _ _ _ hb => simp [hb, hs] at ht

/-- CD goes down only by CLEAR, reset or a DIGEST_W write. -/
theorem clearing_of_uncompared {s t : State} (h : step s = .next t) (hs : s.blk.cd = true) (ht : t.blk.cd = false) :
    TakesClearOrReset s ∨ TakesDigestWrite s := by
  cases blockChange_of_step h with
  | cleared htakes _ => exact .inl htakes
  | digestWritten htakes _ _ _ => exact .inr htakes
  | unchanged hb | appended _ _ _ _ hb | sealed _ _ hb | compared _ _ hb | raised _ _ _ _ hb => simp [hb, hs] at ht

/-- A step that leaves CD at 1 leaves DIG alone: each step that writes DIG writes CD as well (R26). -/
theorem dig_of_compared {s t : State} (h : step s = .next t) (ht : t.blk.cd = true) : t.blk.dig = s.blk.dig := by
  cases blockChange_of_step h with
  | cleared _ hb | digestWritten _ _ _ hb => simp [hb] at ht
  | unchanged hb | appended _ _ _ _ hb | sealed _ _ hb | compared _ _ hb | raised _ _ _ _ hb => simp [hb]

/-- Settles O38: who writes CD is read off the step's changes, and what each writer leaves off its own effect. -/
theorem compareResultIsNeverStale : Obligations.CompareResultIsNeverStale := by
  unfold Obligations.CompareResultIsNeverStale
  intro s t h
  refine ⟨compare_of_compared h, fun htakes hsd => ?_, clearing_of_uncompared h, fun htakes => ?_, dig_of_compared h⟩
  · rw [commandEffect_compare hsd (commandEffect_of_takes htakes h)]
    rfl
  · rcases htakes with hclear | hdigest
    · rw [blk_of_clearOrReset hclear h]
      rfl
    · obtain ⟨j, v, hb⟩ := blk_of_digestWrite hdigest h
      rw [hb]
      rfl

/-- Settles O39: only the clearing steps write 0 to a flag; a raise sets one. -/
theorem errorFlagsAreSticky : Obligations.ErrorFlagsAreSticky := by
  unfold Obligations.ErrorFlagsAreSticky
  intro s t h
  refine ⟨fun hnot => ?_, fun htakes => ?_⟩
  · cases blockChange_of_step h with
    | cleared htakes _ => exact absurd htakes hnot
    | raised e _ _ _ hb => simp +contextual [hb]
    | unchanged hb | digestWritten _ _ _ hb | appended _ _ _ _ hb | sealed _ _ hb | compared _ _ hb => simp [hb]
  · rw [blk_of_clearOrReset htakes h]
    exact ⟨rfl, rfl, rfl, rfl, rfl⟩

theorem code_toNat_le (e : CmdErr) : e.code.toNat ≤ 4 := by
  cases e <;> decide

/-- Settles O40: of the changes a step can make, only the clearing ones and the raise of an error write LASTERR. -/
theorem lastErrorIsTheLatestCode : Obligations.LastErrorIsTheLatestCode := by
  unfold Obligations.LastErrorIsTheLatestCode
  intro s t h
  cases blockChange_of_step h with
  | cleared htakes hb => exact ⟨.inr (.inl ⟨htakes, by rw [hb]; rfl⟩), fun _ => by simp [hb]⟩
  | raised e v hrst htakes hb =>
    have hcode : t.blk.lastErr = e.code := by rw [hb, Block.raise_lastErr]
    exact ⟨.inr (.inr ⟨hrst, ⟨v, htakes⟩, e, hb, hcode⟩), fun _ => hcode ▸ code_toNat_le e⟩
  | unchanged hb | digestWritten _ _ _ hb | appended _ _ _ _ hb | sealed _ _ hb | compared _ _ hb => simp [hb]

/-- Settles O41: of the changes a step can make, only the clearing ones and the append, below 24, write W. -/
theorem wordCountWriters : Obligations.WordCountWriters := by
  unfold Obligations.WordCountWriters
  intro s t h
  refine and_left_comm.mp ⟨fun htakes => by rw [blk_of_clearOrReset htakes h]; rfl, ?_⟩
  cases blockChange_of_step h with
  | cleared htakes hb => exact ⟨.inr (.inl ⟨htakes, by rw [hb]; rfl⟩), fun _ => by simp [hb]⟩
  | appended idx htakes _ hw hb =>
    have hnext : t.blk.w.toNat = s.blk.w.toNat + 1 := by rw [hb, append_w_toNat idx hw]
    exact ⟨.inr (.inr ⟨⟨idx, htakes⟩, hw, hnext⟩), fun _ => by omega⟩
  | unchanged hb | digestWritten _ _ _ hb | sealed _ _ hb | compared _ _ hb | raised _ _ _ _ hb => simp [hb]

/-- Settles O42: of the changes a step can make, the append writes BUF, the digest write DIG, and the clearing ones both. -/
theorem bufferAndDigestWriters : Obligations.BufferAndDigestWriters := by
  unfold Obligations.BufferAndDigestWriters
  intro s t h
  cases blockChange_of_step h with
  | cleared htakes _ => exact ⟨.inr (.inl htakes), .inr (.inl htakes)⟩
  | digestWritten htakes _ _ hb => exact ⟨.inl (by simp [hb]), .inr (.inr htakes)⟩
  | appended idx htakes _ _ hb => exact ⟨.inr (.inr ⟨idx, htakes⟩), .inl (by simp [hb])⟩
  | unchanged hb | sealed _ _ hb | compared _ _ hb | raised _ _ _ _ hb => simp [hb]

section ReadTime

variable {b b' : Block}

/-- ENTv is a function of SD and W (R31). -/
theorem entV_congr (hsd : b'.sd = b.sd) (hw : b'.w = b.w) : entV b' = entV b := by
  simp [entV, hsd, hw]

/-- CSv is a function of SD and W (R31). -/
theorem csV_congr (hsd : b'.sd = b.sd) (hw : b'.w = b.w) : csV b' = csV b := by
  simp [csV, hsd, hw]

/-- CSV is a function of SD, W and BUF (R31). -/
theorem csValue_congr (hsd : b'.sd = b.sd) (hw : b'.w = b.w) (hbuf : b'.buf = b.buf) : csValue b' = csValue b := by
  simp [csValue, hsd, hbuf, entV_congr hsd hw, csV_congr hsd hw]

/-- ENT_W is a function of SD, W and BUF (R38). -/
theorem entWord_congr (hsd : b'.sd = b.sd) (hw : b'.w = b.w) (hbuf : b'.buf = b.buf) (j : Nat) :
    entWord b' j = entWord b j := by
  simp [entWord, hbuf, entV_congr hsd hw]

/-- EXPCS is a function of SD, W, CD and DIG (R31). -/
theorem expCs_congr (hsd : b'.sd = b.sd) (hw : b'.w = b.w) (hcd : b'.cd = b.cd) (hdig : b'.dig = b.dig) :
    expCs b' = expCs b := by
  simp [expCs, hcd, hdig, csV_congr hsd hw]

end ReadTime

/-- Settles O43: each value is a function of elements that the seal and the comparison hold fixed. -/
theorem derivedValuesAreAsIfLatched : Obligations.DerivedValuesAreAsIfLatched := by
  unfold Obligations.DerivedValuesAreAsIfLatched
  intro s t h hs ht
  obtain ⟨hbuf, hw⟩ := sealed_frame h hs ht
  have hsd : t.blk.sd = s.blk.sd := ht.trans hs.symm
  have hcsv := csValue_congr hsd hw hbuf
  refine ⟨entV_congr hsd hw, csV_congr hsd hw, hcsv, entWord_congr hsd hw hbuf, fun hcs hct => ?_⟩
  have hcd : t.blk.cd = s.blk.cd := hct.trans hcs.symm
  have hexp := expCs_congr hsd hw hcd (dig_of_compared h hct)
  exact ⟨hexp, by rw [matchV, matchV, hcd, hexp, hcsv]⟩

end Sys2Proof.Proofs.Writers

/-! ### What a read of each register answers (10_state.md R34 to R40) -/

namespace Sys2Proof.Proofs.Registers

open Sys2Proof.Machine Sys2Proof.Proofs.Invariant

/-- With reset released, a 4-byte read at a register's offset answers the register's value (R55). -/
theorem readsAs_of_readReg {s : State} {r : Reg} {v : Word} (hrst : s.rst = false) (h : readReg s.blk r = some v)
    {off : Nat} (hoff : r.offset = BitVec.ofNat 8 off) : ReadsAs s off v := by
  rw [ReadsAs, step_offer, ← hoff, takeEvent_read hrst]
  exact memRead_reg h

/-! STATUS -/

/-- Bits 0 to 7 of STATUS, from bit 0 up. -/
def statusFlags (b : Block) : List Bool := [b.sd, b.cd, matchV b, false, b.eIll, b.eSeq, b.eOvf, b.eCnt]

theorem getLsbD_statusWord (b : Block) (i : Nat) :
    (statusWord b).getLsbD i = if i < 8 then (statusFlags b).getD i false else b.lastErr.getLsbD (i - 8) := by
  change BitVec.getLsbD (w := 20 + 4 + 1 + 1 + 1 + 1 + 1 + 1 + 1 + 1) _ i = _
  simp only [statusWord, BitVec.getLsbD_append, BitVec.getLsbD_ofBool]
  by_cases hi : i < 8
  · interval_cases i <;> rfl
  · obtain ⟨j, rfl⟩ := Nat.exists_eq_add_of_le (Nat.not_lt.mp hi)
    by_cases hj : j < 4
    · simp [hj]
    · simp [hj, BitVec.getLsbD_of_ge b.lastErr j (by omega)]

theorem statusWord_lastErr (b : Block) : (statusWord b).extractLsb' 8 4 = b.lastErr := by
  apply BitVec.eq_of_getLsbD_eq
  intro i hi
  simp [hi, getLsbD_statusWord]

theorem statusWord_high (b : Block) : (statusWord b).extractLsb' 12 20 = 0#20 := by
  apply BitVec.eq_of_getLsbD_eq
  intro i hi
  rw [BitVec.getLsbD_extractLsb', getLsbD_statusWord, if_neg (by omega), BitVec.getLsbD_of_ge _ _ (by omega)]
  simp

/-- Bits 2:0 after a comparison: MATCH above CD = 1 and SD = 1. -/
theorem statusWord_low {b : Block} {m : Bool} (hsd : b.sd = true) (hcd : b.cd = true) (hm : matchV b = m) :
    (statusWord b).extractLsb' 0 3 = BitVec.ofBool m ++ 0b11#2 := by
  apply BitVec.eq_of_getLsbD_eq
  intro i hi
  rw [BitVec.getLsbD_extractLsb', getLsbD_statusWord, statusFlags, hsd, hcd, hm]
  interval_cases i <;> cases m <;> rfl

/-- Settles O28: bit by bit from `getLsbD_statusWord`. -/
theorem statusReadsItsFields : Obligations.StatusReadsItsFields := by
  unfold Obligations.StatusReadsItsFields
  intro s hrst
  have hflag : ∀ i, i < 8 → (statusWord s.blk).getLsbD i = (statusFlags s.blk).getD i false :=
    fun i hi => by rw [getLsbD_statusWord, if_pos hi]
  refine ⟨statusWord s.blk, readsAs_of_readReg hrst (r := .status) rfl rfl, hflag 0 (by decide), hflag 1 (by decide),
    hflag 2 (by decide), hflag 3 (by decide), hflag 4 (by decide), hflag 5 (by decide), hflag 6 (by decide),
    hflag 7 (by decide), statusWord_lastErr _, statusWord_high _, statusWord_low, statusWord_low⟩

/-! The fields of a word put together from three or four -/

section Fields

variable {k l m n : Nat} (w : BitVec k) (x : BitVec l) (y : BitVec m) (z : BitVec n)

theorem extractLsb'_second : (x ++ y ++ z).extractLsb' n m = y := by
  rw [BitVec.extractLsb'_append_eq_of_le (Nat.le_refl n), Nat.sub_self, BitVec.extractLsb'_append_eq_right]

theorem extractLsb'_third : (w ++ x ++ y ++ z).extractLsb' (n + m) l = x := by
  rw [BitVec.extractLsb'_append_eq_of_le (Nat.le_add_right n m), Nat.add_sub_cancel_left, extractLsb'_second]

theorem extractLsb'_top_of_three : (x ++ y ++ z).extractLsb' (n + m) l = x := by
  rw [BitVec.extractLsb'_append_eq_of_le (Nat.le_add_right n m), Nat.add_sub_cancel_left,
    BitVec.extractLsb'_append_eq_left]

theorem extractLsb'_top_of_four : (w ++ x ++ y ++ z).extractLsb' (n + (m + l)) k = w := by
  rw [BitVec.extractLsb'_append_eq_of_le (Nat.le_add_right n _), Nat.add_sub_cancel_left, extractLsb'_top_of_three]

end Fields

/-! WCOUNT and PARAMS -/

theorem wcountWord_w (b : Block) : (wcountWord b).extractLsb' 0 5 = b.w :=
  BitVec.extractLsb'_append_eq_right

theorem wcountWord_gap (b : Block) : (wcountWord b).extractLsb' 5 11 = 0#11 :=
  extractLsb'_second _ 0#11 b.w

theorem wcountWord_len (b : Block) : (wcountWord b).extractLsb' 16 9 = BitVec.ofNat 9 (lenV b) :=
  extractLsb'_third 0#7 (BitVec.ofNat 9 (lenV b)) 0#11 b.w

theorem wcountWord_high (b : Block) : (wcountWord b).extractLsb' 25 7 = 0#7 :=
  extractLsb'_top_of_four 0#7 (BitVec.ofNat 9 (lenV b)) 0#11 b.w

/-- Settles O29: the nine bits of the LEN field hold 11·W for every five-bit W. -/
theorem wcountReadsCountAndLength : Obligations.WcountReadsCountAndLength := by
  unfold Obligations.WcountReadsCountAndLength
  intro s hrst
  have hlen : lenV s.blk < 2 ^ 9 := by
    have := s.blk.w.isLt
    rw [lenV]
    omega
  refine ⟨wcountWord s.blk, readsAs_of_readReg hrst (r := .wcount) rfl rfl, wcountWord_w _, ?_, wcountWord_gap _,
    wcountWord_high _⟩
  rw [wcountWord_len, BitVec.toNat_ofNat, Nat.mod_eq_of_lt hlen]
  rfl

theorem paramsWord_ent (b : Block) : ((paramsWord b).extractLsb' 0 9).toNat = entV b := by
  have he := entV_le b
  have hfield : (paramsWord b).extractLsb' 0 9 = BitVec.ofNat 9 (entV b) := BitVec.extractLsb'_append_eq_right
  rw [hfield, BitVec.toNat_ofNat, Nat.mod_eq_of_lt (by omega)]

theorem paramsWord_gap (b : Block) : (paramsWord b).extractLsb' 9 7 = 0#7 :=
  extractLsb'_second _ 0#7 (BitVec.ofNat 9 (entV b))

theorem paramsWord_cs (b : Block) : ((paramsWord b).extractLsb' 16 4).toNat = csV b := by
  have hc := csV_le b
  have hfield : (paramsWord b).extractLsb' 16 4 = BitVec.ofNat 4 (csV b) :=
    extractLsb'_third 0#12 (BitVec.ofNat 4 (csV b)) 0#7 (BitVec.ofNat 9 (entV b))
  rw [hfield, BitVec.toNat_ofNat, Nat.mod_eq_of_lt (by omega)]

theorem paramsWord_high (b : Block) : (paramsWord b).extractLsb' 20 12 = 0#12 :=
  extractLsb'_top_of_four 0#12 (BitVec.ofNat 4 (csV b)) 0#7 (BitVec.ofNat 9 (entV b))

theorem paramsWord_unsealed {b : Block} (hsd : b.sd = false) : paramsWord b = 0#32 := by
  rw [paramsWord, entV_unsealed hsd, csV_unsealed hsd]
  rfl

/-- PARAMS of a sealed legal count n (R36). -/
theorem paramsWord_sealed {b : Block} {n : Nat} (hn : n ∈ [12, 15, 18, 21, 24]) (hsd : b.sd = true)
    (hw : b.w.toNat = n) : paramsWord b = 0#12 ++ BitVec.ofNat 4 (n / 3) ++ 0#7 ++ BitVec.ofNat 9 (32 * n / 3) := by
  have hl : legalCount b.w = true := (legalCount_iff _).mpr (hw ▸ hn)
  rw [paramsWord, entV_legal hsd hl, csV_legal hsd hl, hw]

/-- Settles O30: the fields hold ENTv and CSv by their bounds, which the free values have too (log entry 6). -/
theorem paramsReadsTheSizes : Obligations.ParamsReadsTheSizes := by
  unfold Obligations.ParamsReadsTheSizes
  intro s hrst
  exact ⟨paramsWord s.blk, readsAs_of_readReg hrst (r := .params) rfl rfl, paramsWord_ent _, paramsWord_cs _,
    paramsWord_gap _, paramsWord_high _, paramsWord_unsealed, paramsWord_sealed (by decide),
    paramsWord_sealed (by decide), paramsWord_sealed (by decide), paramsWord_sealed (by decide),
    paramsWord_sealed (by decide)⟩

/-! CSBITS -/

theorem csbitsWord_csValue (b : Block) : (csbitsWord b).extractLsb' 0 8 = csValue b :=
  BitVec.extractLsb'_append_eq_right

theorem csbitsWord_expCs (b : Block) : (csbitsWord b).extractLsb' 8 8 = expCs b :=
  extractLsb'_second 0#16 (expCs b) (csValue b)

theorem csbitsWord_high (b : Block) : (csbitsWord b).extractLsb' 16 16 = 0#16 :=
  extractLsb'_top_of_three 0#16 (expCs b) (csValue b)

/-- A bit of a field is a bit of the word. -/
theorem getLsbD_of_extractLsb' {v : Word} {a n : Nat} {x : BitVec n} (h : v.extractLsb' a n = x) {i : Nat}
    (hi : i < n) : v.getLsbD (a + i) = x.getLsbD i := by
  simp [← h, hi]

theorem getLsbD_csbitsWord_low (b : Block) {i : Nat} (hi : i < 8) :
    (csbitsWord b).getLsbD i = (csValue b).getLsbD i := by
  simpa using getLsbD_of_extractLsb' (csbitsWord_csValue b) hi

theorem getLsbD_csbitsWord_expCs (b : Block) {i : Nat} (hi : i < 8) :
    (csbitsWord b).getLsbD (8 + i) = (expCs b).getLsbD i :=
  getLsbD_of_extractLsb' (csbitsWord_expCs b) hi

/-- Settles O31: the two fields are CSV and EXPCS, whose bits `csValue_bit` and `expCs_bit` name. -/
theorem csbitsReadsBothSides : Obligations.CsbitsReadsBothSides := by
  unfold Obligations.CsbitsReadsBothSides
  intro s hrst
  have hcs := csV_le s.blk
  refine ⟨csbitsWord s.blk, readsAs_of_readReg hrst (r := .csbits) rfl rfl, csbitsWord_high _, fun hsd => ?_,
    fun hcd => ?_, fun hsd => ⟨fun k hk => ?_, fun i hi hi8 => ?_⟩, fun hcd => ⟨fun k hk => ?_, fun i hi hi8 => ?_⟩⟩
  · rw [csbitsWord_csValue, csValue, hsd]
    rfl
  · rw [csbitsWord_expCs, expCs, hcd]
    rfl
  · rw [getLsbD_csbitsWord_low _ (by omega), csValue_bit hsd hk]
  · rw [getLsbD_csbitsWord_low _ hi8, csValue_high _ hi]
  · rw [getLsbD_csbitsWord_expCs _ (by omega), expCs_bit hcd hk]
  · rw [getLsbD_csbitsWord_expCs _ hi8, expCs_high _ hi]

/-! ENT_W, ACC_W and DIGEST_W -/

/-- A register above the entropy reads 0 (R38). -/
theorem entWord_eq_zero {b : Block} {j : Nat} (hj : j < 8) (h : entV b ≤ 32 * j) : entWord b j = 0#32 := by
  refine word_eq_zero fun k hk => ?_
  rw [getLsbD_entWord b hj hk (by have := entV_le b; omega), decide_eq_false (by omega), Bool.false_and]

/-- Bit m of byte n of the entropy registers is BUF⟨8n+m⟩ (R38). -/
theorem getMsbD_entropyByte {b : Block} {n m : Nat} (hn : n < entV b / 8) (hm : m < 8) :
    (entropyByte b n).getMsbD m = bufBit b.buf (8 * n + m) := by
  have he := entV_le b
  have hin : 32 * (n / 4) + (8 * (n % 4) + m) < entV b := by omega
  rw [entropyByte, getMsbD_wordByte _ (by omega) hm, Nat.sub_sub, getLsbD_entWord b (by omega) (by omega) (by omega),
    decide_eq_true hin, Bool.true_and]
  congr 1
  omega

/-- Settles O32: ENT_W shows the bits of BUF below ENTv, which is 0 while SD = 0. -/
theorem entropyRegistersReadTheEntropyBits : Obligations.EntropyRegistersReadTheEntropyBits := by
  unfold Obligations.EntropyRegistersReadTheEntropyBits
  intro s j hrst hj
  refine ⟨entWord s.blk j, readsAs_of_readReg hrst (r := .entW ⟨j, hj⟩) rfl rfl, fun k hk => ?_,
    fun _ n hn hnj m hm => ?_, entWord_eq_zero hj⟩
  · rw [getLsbD_entWord _ hj (by omega) (by have := entV_le s.blk; omega)]
    cases hsd : s.blk.sd
    · simp [entV_unsealed hsd]
    · simp
  · rw [← hnj]
    exact getMsbD_entropyByte hn hm

/-- Settles O33: ACC_W shows BUF alone, which has no bit from position 264 on. -/
theorem accRegistersReadTheBuffer : Obligations.AccRegistersReadTheBuffer := by
  unfold Obligations.AccRegistersReadTheBuffer
  intro s j hrst hj
  have hbit : ∀ k, k < 32 → (accWord s.blk j).getLsbD (31 - k) = bufBit s.blk.buf (32 * j + k) :=
    fun k hk => getLsbD_accWord s.blk hj hk
  refine ⟨accWord s.blk j, readsAs_of_readReg hrst (r := .accW ⟨j, hj⟩) rfl rfl, fun k hk => ?_, fun h8 => ?_,
    fun hinv k hk hlen => ?_, fun d => readsAs_of_readReg (by exact hrst) (r := .accW ⟨j, hj⟩) rfl rfl⟩
  · rw [hbit k (by omega)]
    by_cases hin : 32 * j + k < 264
    · simp [hin]
    · simp [hin, bufBit_of_le s.blk.buf (Nat.not_lt.mp hin)]
  · apply BitVec.eq_of_getLsbD_eq
    intro i hi
    have hout := hbit (31 - i) (by omega)
    rw [bufBit_of_le _ (by omega), show 31 - (31 - i) = i by omega] at hout
    simpa [show i < 24 from hi] using hout
  · rw [hbit k (by omega)]
    by_cases hin : 32 * j + k < 264
    · exact hinv.unusedZero _ hlen hin
    · exact bufBit_of_le _ (Nat.not_lt.mp hin)

/-- Settles O34: the register is DIG[j] itself, and `getMsbD_wordByte` places its bytes. -/
theorem digestRegistersReadTheDigest : Obligations.DigestRegistersReadTheDigest :=
  ⟨fun _ j hrst => readsAs_of_readReg hrst (r := .digestW j) rfl rfl,
    fun _ n _ hm => getMsbD_wordByte _ (Nat.mod_lt n.val (by decide)) hm⟩

/-! The reset block -/

theorem accWord_reset {j : Nat} (hj : j < 9) : accWord Block.reset j = 0#32 :=
  word_eq_zero fun k hk => by rw [getLsbD_accWord _ hj hk, Block.reset_buf, bufBit_zero]

theorem dig_reset (j : Fin 8) : Block.reset.dig[j] = 0#32 := by
  simp [Block.reset]

/-- After reset every register but CMD reads 0 (R44). -/
theorem readReg_reset {r : Reg} (hr : r ≠ .cmd) : readReg Block.reset r = some 0#32 := by
  cases r with
  | cmd => exact absurd rfl hr
  | status | wcount | params | csbits => rfl
  | entW j => exact congrArg some (entWord_eq_zero j.isLt (Nat.zero_le _))
  | digestW j => exact congrArg some (dig_reset j)
  | accW j => exact congrArg some (accWord_reset j.isLt)

/-- Settles O10: CLEAR and the reset input write `Block.reset`, and `readReg_reset` reads it. -/
theorem clearAndResetLeaveTheResetBlock : Obligations.ClearAndResetLeaveTheResetBlock :=
  ⟨fun _ => rfl, fun _ => rfl, fun i _ => bufBit_zero i, rfl, rfl, rfl, rfl, rfl, rfl, rfl, rfl, dig_reset,
    fun _ hr => readReg_reset hr, rfl⟩

end Sys2Proof.Proofs.Registers

/-! ### What each command does, one equation per case (40_control.md, 41_bit_accumulator.md, 42_checksum_extractor.md,
43_comparator.md) -/

namespace Sys2Proof.Proofs.Commands

open Sys2Proof.Machine

/-- CLEAR (R101). -/
theorem exec_clear (s : State) : exec .clear s = .next (s.setBlk Block.reset) := rfl

section Cases

variable {s : State}

/-- PUSH onto an open buffer with room (R111). -/
theorem exec_push_open (idx : WordIndex) (hsd : s.blk.sd = false) (hw : s.blk.w.toNat < 24) :
    exec (.push idx) s = .next (s.setBlk (s.blk.append idx)) := by
  have h24 : s.blk.w ≠ 24#5 := by bv_omega
  have hin : ¬ 264 < 11 * s.blk.w.toNat + 11 := by omega
  simp [exec, execPush, appendIndex, hsd, h24, hin]

/-- PUSH onto a sealed buffer (R112). -/
theorem exec_push_sealed (idx : WordIndex) (hsd : s.blk.sd = true) :
    exec (.push idx) s = .next (s.setBlk (s.blk.raise .seq)) := by
  simp [exec, execPush, cmdError, hsd]

/-- PUSH onto a full buffer (R113). -/
theorem exec_push_full (idx : WordIndex) (hsd : s.blk.sd = false) (hw : s.blk.w.toNat = 24) :
    exec (.push idx) s = .next (s.setBlk (s.blk.raise .overflow)) := by
  have h24 : s.blk.w = 24#5 := BitVec.eq_of_toNat_eq hw
  simp [exec, execPush, cmdError, hsd, h24]

/-- SPLIT of a legal count (R123). -/
theorem exec_split_legal (hl : legalCount s.blk.w = true) : exec .split s = .next (s.setBlk s.blk.seal) := by
  simp [exec, execSplit, hl]

/-- SPLIT of an illegal count (R122). -/
theorem exec_split_illegal (hl : legalCount s.blk.w = false) :
    exec .split s = .next (s.setBlk (s.blk.raise .count)) := by
  simp [exec, execSplit, cmdError, hl]

/-- COMPARE on a sealed buffer (R136). -/
theorem exec_compare_sealed (hsd : s.blk.sd = true) : exec .compare s = .next (s.setBlk s.blk.markCompared) := by
  simp [exec, execCompare, hsd]

/-- COMPARE before SPLIT (R139). -/
theorem exec_compare_open (hsd : s.blk.sd = false) : exec .compare s = .next (s.setBlk (s.blk.raise .seq)) := by
  simp [exec, execCompare, cmdError, hsd]

end Cases

end Sys2Proof.Proofs.Commands

/-! ### The block after CLEAR and a sequence of PUSHes (R110, R115) -/

namespace Sys2Proof.Proofs.Loading

open Sys2Proof.Machine Sys2Proof.Proofs.Invariant

/-- The block after CLEAR and one PUSH for each index. -/
def loaded (is : List WordIndex) : Block := is.foldl Block.append Block.reset

@[simp] theorem loaded_nil : loaded [] = Block.reset := rfl

theorem loaded_concat (is : List WordIndex) (idx : WordIndex) : loaded (is ++ [idx]) = (loaded is).append idx := by
  simp [loaded]

/-- PUSH writes BUF and W alone (R114), so every other element has its reset value. -/
theorem loaded_eq (is : List WordIndex) :
    loaded is = { Block.reset with buf := (loaded is).buf, w := (loaded is).w } := by
  induction is using List.reverseRecOn with
  | nil => rfl
  | append_singleton is idx ih =>
    rw [loaded_concat, Block.append, ih]

@[simp] theorem loaded_sd (is : List WordIndex) : (loaded is).sd = false := by
  rw [loaded_eq]; rfl

theorem loaded_w_toNat {is : List WordIndex} (h : is.length ≤ 24) : (loaded is).w.toNat = is.length := by
  induction is using List.reverseRecOn with
  | nil => rfl
  | append_singleton is idx ih =>
    rw [List.length_append, List.length_singleton] at h ⊢
    have hw := ih (by omega)
    rw [loaded_concat, append_w_toNat idx (by omega), hw]

@[simp] theorem length_indexBits (idx : WordIndex) : (indexBits idx).length = 11 := by simp [indexBits]

theorem getD_indexBits (idx : WordIndex) {k : Nat} (hk : k < 11) :
    (indexBits idx).getD k false = idx.getLsbD (10 - k) := by
  simp [indexBits, hk, BitVec.getMsbD]

theorem packIndices_concat (is : List WordIndex) (idx : WordIndex) :
    packIndices (is ++ [idx]) = packIndices is ++ indexBits idx := by
  simp [packIndices]

@[simp] theorem length_packIndices (is : List WordIndex) : (packIndices is).length = 11 * is.length := by
  induction is using List.reverseRecOn with
  | nil => rfl
  | append_singleton is idx ih =>
    rw [packIndices_concat, List.length_append, ih, length_indexBits, List.length_append, List.length_singleton]
    omega

/-- BUF holds the source's `pack` of the indices, then zeros (R110). -/
theorem bufBit_loaded {is : List WordIndex} (h : is.length ≤ 24) {i : Nat} (hi : i < 264) :
    bufBit (loaded is).buf i = (packIndices is).getD i false := by
  induction is using List.reverseRecOn with
  | nil => exact bufBit_zero i
  | append_singleton is idx ih =>
    rw [List.length_append, List.length_singleton] at h
    have hlen := length_packIndices is
    rw [loaded_concat, Block.append_buf, loaded_w_toNat (by omega), packIndices_concat,
      bufBit_writeIndex _ (by omega) _ hi]
    by_cases hold : i < 11 * is.length
    · rw [if_neg (by omega), List.getD_append _ _ _ _ (by omega), ih (by omega)]
    · rw [List.getD_append_right _ _ _ _ (by omega), hlen]
      by_cases hnew : i < 11 * is.length + 11
      · rw [if_pos (by omega), getD_indexBits _ (by omega)]
      · rw [if_neg (by omega), ih (by omega), List.getD_eq_default _ _ (by omega),
          List.getD_eq_default _ _ (by rw [length_indexBits]; omega)]

end Sys2Proof.Proofs.Loading

/-! ### The host's accesses, with reset released (20_memory.md R54 to R60, R70) -/

namespace Sys2Proof.Proofs.HostAccess

open Sys2Proof.Machine Sys2Proof.Proofs.BlockChanges Sys2Proof.Proofs.Commands Sys2Proof.Proofs.Registers
  Sys2Proof.Proofs.Loading

/-- The block is `b` and takes accesses. -/
def Ready (s : State) (b : Block) : Prop := s.rst = false ∧ s.blk = b

/-- The host's writes `rs` are all answered OK and take the block from `b` to `b'`. -/
def WritesTake (rs : List Request) (b b' : Block) : Prop :=
  ∀ s, Ready s b → ∃ t, hostWrites rs s = some t ∧ Ready t b'

theorem ready_self {s : State} (hrst : s.rst = false) : Ready s s.blk := ⟨hrst, rfl⟩

theorem writesTake_nil (b : Block) : WritesTake [] b b := fun s hs => ⟨s, rfl, hs⟩

theorem hostWrites_append (rs rs' : List Request) (s : State) :
    hostWrites (rs ++ rs') s = (hostWrites rs s).bind (hostWrites rs') := by
  induction rs generalizing s with
  | nil => rfl
  | cons r rs ih =>
    rw [List.cons_append, hostWrites, hostWrites]
    split
    · exact ih _
    · rfl

theorem WritesTake.append {rs rs' : List Request} {b b' b'' : Block} (h : WritesTake rs b b')
    (h' : WritesTake rs' b' b'') : WritesTake (rs ++ rs') b b'' := by
  intro s hs
  obtain ⟨t, ht, hready⟩ := h s hs
  rw [hostWrites_append, ht]
  exact h' t hready

/-- A write whose step is answered OK takes the block where the step takes it. -/
theorem writesTake_of_step {r : Request} {b b' : Block}
    (h : ∀ s, Ready s b → step (s.offer (.access r)) = .next ((s.respond .ok).setBlk b')) : WritesTake [r] b b' := by
  intro s hs
  refine ⟨(s.respond .ok).setBlk b', ?_, hs.1, rfl⟩
  simp [hostWrites, hostAccess, h s hs]

/-- A command that completes takes the block where its meaning does (R59). -/
theorem writesTake_command {i : Instr} {b b' : Block} (h : ∀ s : State, s.blk = b → exec i s = .next (s.setBlk b')) :
    WritesTake [commandReq i] b b' :=
  writesTake_of_step fun s hs => by
    have hcmd : step (s.offer (.access (commandReq i))) = execute (encode i) (s.respond .ok) :=
      takeEvent_cmdWrite hs.1 (encode i)
    rw [hcmd, execute_command (decode_encode i)]
    exact h (s.respond .ok) hs.2

/-- A 4-byte write to DIGEST_W[j] (R60). -/
theorem step_digestWrite {s : State} (hrst : s.rst = false) (j : Fin 8) (v : Word) :
    step (s.offer (.access (writeReq (Reg.digestW j).offset v)))
      = .next ((s.respond .ok).setBlk (s.blk.writeDigest j v)) :=
  (takeEvent_write hrst _ _ _).trans (memWrite_digest s j v)

theorem writesTake_digest (j : Fin 8) (v : Word) (b : Block) :
    WritesTake [writeReq (Reg.digestW j).offset v] b (b.writeDigest j v) :=
  writesTake_of_step fun _ hs => hs.2 ▸ step_digestWrite hs.1 j v

/-- LOAD of up to 24 indices (R88) leaves the block loaded with them, whatever it held. -/
theorem writesTake_load {is : List WordIndex} (h : is.length ≤ 24) (b : Block) :
    WritesTake (AsmLine.load is).expand b (loaded is) := by
  induction is using List.reverseRecOn with
  | nil => exact writesTake_command fun s _ => exec_clear s
  | append_singleton is idx ih =>
    rw [List.length_append, List.length_singleton] at h
    have hexpand : (AsmLine.load (is ++ [idx])).expand = (AsmLine.load is).expand ++ [commandReq (.push idx)] := by
      simp [AsmLine.expand]
    rw [hexpand, loaded_concat]
    have hw := loaded_w_toNat (is := is) (by omega)
    refine (ih (by omega)).append (writesTake_command fun s hs => ?_)
    rw [← hs]
    exact exec_push_open idx (by rw [hs, loaded_sd]) (by rw [hs, hw]; omega)

/-- SPLIT seals a loaded legal count. -/
theorem writesTake_split {b : Block} (hl : legalCount b.w = true) : WritesTake [commandReq .split] b b.seal :=
  writesTake_command fun _ hs => hs ▸ exec_split_legal (hs ▸ hl)

theorem writesTake_compare {b : Block} (hsd : b.sd = true) : WritesTake [commandReq .compare] b b.markCompared :=
  writesTake_command fun _ hs => hs ▸ exec_compare_sealed (hs ▸ hsd)

/-- The block with the whole digest `d` written, CD cleared (R60). -/
def writeWholeDigest (b : Block) (d : Digest) : Block :=
  { b with dig := Vector.ofFn (fun j => digestWord d j.val), cd := false }

theorem writesTake_digests (d : Digest) (js : List (Fin 8)) (b : Block) :
    WritesTake (js.map fun j => writeReq (Reg.digestW j).offset (digestWord d j.val)) b
      (js.foldl (fun b j => b.writeDigest j (digestWord d j.val)) b) := by
  induction js generalizing b with
  | nil => exact writesTake_nil b
  | cons j js ih => exact (writesTake_digest j _ b).append (ih _)

/-- Writing the eight words in order writes the whole digest. -/
theorem foldl_writeDigest (b : Block) (d : Digest) :
    [0, 1, 2, 3, 4, 5, 6, 7].foldl (fun b j => b.writeDigest j (digestWord d j.val)) b = writeWholeDigest b d := by
  simp only [List.foldl_cons, List.foldl_nil, Block.writeDigest, writeWholeDigest, Block.mk.injEq, true_and]
  ext i hi : 1
  interval_cases i <;> simp

/-- SETDIG (R88). -/
theorem writesTake_setDig (b : Block) (d : Digest) :
    WritesTake (AsmLine.setDig d).expand b (writeWholeDigest b d) :=
  foldl_writeDigest b d ▸ writesTake_digests d [0, 1, 2, 3, 4, 5, 6, 7] b

/-- The block after the digest `d` is written and compared. -/
def judged (b : Block) (d : Digest) : Block := (writeWholeDigest b d).markCompared

@[simp] theorem judged_cd (b : Block) (d : Digest) : (judged b d).cd = true := rfl
@[simp] theorem judged_buf (b : Block) (d : Digest) : (judged b d).buf = b.buf := rfl
@[simp] theorem judged_dig_zero (b : Block) (d : Digest) : (judged b d).dig[0] = digestWord d 0 := by
  simp [judged, writeWholeDigest]
@[simp] theorem entV_judged (b : Block) (d : Digest) : entV (judged b d) = entV b := rfl
@[simp] theorem csV_judged (b : Block) (d : Digest) : csV (judged b d) = csV b := rfl

/-- SETDIG and COMPARE on a sealed block. -/
theorem writesTake_judge {b : Block} (hsd : b.sd = true) (d : Digest) :
    WritesTake ((AsmLine.setDig d).expand ++ [commandReq .compare]) b (judged b d) :=
  (writesTake_setDig b d).append (writesTake_compare hsd)

/-! Reads -/

/-- A read of a register with a value gives it and leaves the block as it was (R55). -/
theorem hostRead_ready {s : State} {b : Block} {r : Reg} {v : Word} (hs : Ready s b) (hr : readReg b r = some v) :
    ∃ t, hostRead r.offset s = some (v, t) ∧ Ready t b := by
  refine ⟨s.respond (.okData v), ?_, hs.1, hs.2⟩
  have hstep : step (s.offer (.access (readReq r.offset))) = .next (s.respond (.okData v)) :=
    (takeEvent_read hs.1 _ _).trans (memRead_reg (hs.2 ▸ hr))
  simp [hostRead, hostAccess, hstep]

/-- The entropy registers `js`, read in order (R38). -/
theorem hostReads_entropy {b : Block} {js : List Nat} (hjs : ∀ j ∈ js, j < 8) {s : State} (hs : Ready s b) :
    ∃ t, hostReads (js.map fun j => BitVec.ofNat 8 (0x20 + 4 * j)) s = some (js.map (entWord b), t) ∧ Ready t b := by
  induction js generalizing s with
  | nil => exact ⟨s, rfl, hs⟩
  | cons j js ih =>
    obtain ⟨hj, hjs⟩ := List.forall_mem_cons.mp hjs
    obtain ⟨t, hread, ht⟩ := hostRead_ready hs (r := .entW ⟨j, hj⟩) rfl
    obtain ⟨u, hreads, hu⟩ := ih hjs ht
    exact ⟨u, by simp [hostReads, show hostRead (BitVec.ofNat 8 (0x20 + 4 * j)) s = _ from hread, hreads], hu⟩

end Sys2Proof.Proofs.HostAccess

/-! ### The source's `verify` and what the block shows (10_state.md R38, 43_comparator.md R138, R141) -/

namespace Sys2Proof.Proofs.SourceVerify

open Sys2Proof.Machine Sys2Proof.Proofs.Writers Sys2Proof.Proofs.Registers Sys2Proof.Proofs.Loading
  Sys2Proof.Proofs.HostAccess

/-- MATCH is 1 if and only if each checksum bit equals the digest bit of the same place (R138). -/
theorem matchV_iff {b : Block} (hcd : b.cd = true) :
    matchV b = true ↔ ∀ k, k < csV b → bufBit b.buf (entV b + k) = b.dig[0].getLsbD (31 - k) := by
  have hsd : ∀ {k}, k < csV b → b.sd = true := fun {k} hk => by
    by_contra hs
    simp [csV_unsealed (Bool.not_eq_true _ ▸ hs)] at hk
  rw [matchV, hcd, Bool.true_and, beq_iff_eq]
  refine ⟨fun heq k hk => ?_, fun hbits => BitVec.eq_of_getLsbD_eq fun i _ => ?_⟩
  · rw [← csValue_bit (hsd hk) hk, ← expCs_bit hcd hk, heq]
  · by_cases hi : i < csV b
    · have hk : csV b - 1 - i < csV b := by omega
      have hback : csV b - 1 - (csV b - 1 - i) = i := by omega
      have hexp := expCs_bit hcd hk
      have hval := csValue_bit (hsd hk) hk
      rw [hback] at hexp hval
      rw [hexp, hval, hbits _ hk]
    · rw [expCs_high b (Nat.not_lt.mp hi), csValue_high b (Nat.not_lt.mp hi)]

/-! Numbers from lists of bits -/

/-- The source's reading of a bit list is the bit vector of the list, first bit most significant. -/
theorem bitsToNat_eq_ofBoolListBE (bits : List Bool) : bitsToNat bits = (BitVec.ofBoolListBE bits).toNat := by
  induction bits with
  | nil => rfl
  | cons c bits ih => rw [bitsToNat, BitVec.ofBoolListBE, BitVec.toNat_cons', Nat.shiftLeft_eq, ih]

/-- The bits of a byte packed from eight bits. -/
theorem getMsbD_ofNat_bitsToNat {bits : List Bool} (hlen : bits.length = 8) (m : Nat) :
    (BitVec.ofNat 8 (bitsToNat bits)).getMsbD m = bits.getD m false := by
  rw [bitsToNat_eq_ofBoolListBE, BitVec.ofNat_toNat, BitVec.getMsbD_setWidth]
  simp [BitVec.getMsbD_ofBoolListBE, hlen]

theorem getD_take_drop {bits : List Bool} {a n m : Nat} (hm : m < n) :
    ((bits.drop a).take n).getD m false = bits.getD (a + m) false := by
  simp [List.getD_eq_getElem?_getD, hm]

/-- A stretch of a bit list, compared place by place. -/
theorem map_range_eq_take_drop_iff {bits : List Bool} {f : Nat → Bool} {a n : Nat} (h : a + n ≤ bits.length) :
    (List.range n).map f = (bits.drop a).take n ↔ ∀ k, k < n → f k = bits.getD (a + k) false := by
  refine ⟨fun heq k hk => ?_, fun hall => List.ext_getElem (by simp; omega) fun k hk _ => ?_⟩
  · rw [← getD_take_drop hk, ← heq]
    simp [hk]
  · have hk : k < n := by simpa using hk
    have hin : a + k < bits.length := by omega
    simp [hall k hk, hin]

/-! The entropy bytes -/

theorem flatMap_four {α : Type} (f : Nat → α) (n : Nat) :
    (List.range n).flatMap (fun j => [f (4 * j), f (4 * j + 1), f (4 * j + 2), f (4 * j + 3)])
      = (List.range (4 * n)).map f := by
  induction n with
  | zero => rfl
  | succ n ih => simp [List.range_succ, Nat.mul_add, ih]

/-- The bytes of a register are its four entropy bytes (R38). -/
theorem bytesOf_entWord (b : Block) (j : Nat) :
    bytesOf (entWord b j)
      = [entropyByte b (4 * j), entropyByte b (4 * j + 1), entropyByte b (4 * j + 2), entropyByte b (4 * j + 3)] := by
  simp [bytesOf, entropyByte, Nat.mul_add_div]

/-- The bytes of the first n registers are the first 4n entropy bytes. -/
theorem flatMap_bytesOf_entWord (b : Block) (n : Nat) :
    ((List.range n).map (entWord b)).flatMap bytesOf = (List.range (4 * n)).map (entropyByte b) := by
  rw [List.flatMap_map, funext (bytesOf_entWord b), flatMap_four]

/-! A sealed phrase of 3·c words, c in 4..8 -/

/-- A phrase of a legal count, 3·c indices: c is the number of its checksum bits (R8). -/
structure LegalPhrase (is : List WordIndex) (c : Nat) : Prop where
  four_le : 4 ≤ c
  le_eight : c ≤ 8
  length_eq : is.length = 3 * c

theorem exists_legalPhrase {is : List WordIndex} (h : is.length ∈ Config.legalCounts) : ∃ c, LegalPhrase is c := by
  have hthird : ∀ n ∈ Config.legalCounts, 4 ≤ n / 3 ∧ n / 3 ≤ 8 ∧ n = 3 * (n / 3) := by decide
  obtain ⟨h4, h8, hlen⟩ := hthird _ h
  exact ⟨_, h4, h8, hlen⟩

section Sealed

variable {is : List WordIndex} {c : Nat} (hc : LegalPhrase is c)

include hc

theorem legalCount_loaded : legalCount (loaded is).w = true := by
  obtain ⟨h4, h8, hlen⟩ := hc
  rw [legalCount_iff, loaded_w_toNat (by omega), hlen]
  interval_cases c <;> decide

theorem entV_sealed : entV (loaded is).seal = 32 * c := by
  have ⟨_, h8, hlen⟩ := hc
  rw [entV_legal (Block.seal_sd _) (legalCount_loaded hc), Block.seal_w, loaded_w_toNat (by omega), hlen]
  omega

theorem csV_sealed : csV (loaded is).seal = c := by
  have ⟨_, h8, hlen⟩ := hc
  rw [csV_legal (Block.seal_sd _) (legalCount_loaded hc), Block.seal_w, loaded_w_toNat (by omega), hlen]
  omega

/-- The source's bytes of the entropy bits are the entropy bytes of the sealed block (R38). -/
theorem packBytes_entropy :
    packBytes ((packIndices is).take (32 * c)) (4 * c) = (List.range (4 * c)).map (entropyByte (loaded is).seal) := by
  have ⟨_, h8, hlen⟩ := hc
  have hpack := length_packIndices is
  refine List.map_congr_left fun k hk => BitVec.eq_of_getMsbD_eq fun m hm => ?_
  have hk : k < 4 * c := List.mem_range.mp hk
  rw [getMsbD_ofNat_bitsToNat (by simp; omega), getD_take_drop hm,
    getMsbD_entropyByte (by rw [entV_sealed hc]; omega) hm, Block.seal_buf, bufBit_loaded (by omega) (by omega)]
  simpa using getD_take_drop (bits := packIndices is) (a := 0) (by omega : 8 * k + m < 32 * c)

/-- The source's `verify` compares the first digest bits with the bits of `pack` after the entropy bits. -/
theorem sourceVerify_iff (hash : List Byte → Digest) :
    sourceVerify hash is = true ↔
      ∀ k, k < c → (hash ((List.range (4 * c)).map (entropyByte (loaded is).seal))).getMsbD k
        = (packIndices is).getD (32 * c + k) false := by
  have ⟨_, h8, hlen⟩ := hc
  have hpack := length_packIndices is
  have hent : 32 * is.length / 3 = 32 * c := by omega
  have hcs : is.length / 3 = c := by omega
  have hbytes : 32 * c / 8 = 4 * c := by omega
  rw [sourceVerify, hent, hcs, hbytes, packBytes_entropy hc, beq_iff_eq]
  exact map_range_eq_take_drop_iff (by omega)

end Sealed

/-! The digest and MATCH -/

/-- The first digest bits stand at the top of DIG[0] (R88). -/
theorem getLsbD_digestWord_zero (d : Digest) {k : Nat} (hk : k < 32) :
    (digestWord d 0).getLsbD (31 - k) = d.getMsbD k := by
  have hword : 31 - k < 32 := by omega
  have hdigest : k < 256 := by omega
  have hplace : 224 + (31 - k) = 255 - k := by omega
  simp [digestWord, BitVec.getMsbD, hword, hdigest, hplace]

/-- MATCH after SETDIG and COMPARE: the checksum bits are the first digest bits. -/
theorem matchV_judged_iff (b : Block) (d : Digest) :
    matchV (judged b d) = true ↔ ∀ k, k < csV b → d.getMsbD k = bufBit b.buf (entV b + k) := by
  have hcs := csV_le b
  rw [matchV_iff (judged_cd b d), csV_judged, entV_judged, judged_buf, judged_dig_zero]
  refine forall₂_congr fun k hk => ?_
  rw [getLsbD_digestWord_zero d (by omega), eq_comm]

/-- COMPARE of the source's digest with the sealed phrase gives the source's verdict (R13, R137, R138). -/
theorem matchV_judged_sealed {is : List WordIndex} {c : Nat} (hc : LegalPhrase is c) (hash : List Byte → Digest) :
    matchV (judged (loaded is).seal (hash ((List.range (4 * c)).map (entropyByte (loaded is).seal))))
      = sourceVerify hash is := by
  have ⟨_, h8, hlen⟩ := hc
  rw [Bool.eq_iff_iff, matchV_judged_iff, sourceVerify_iff hc, csV_sealed hc, entV_sealed hc, Block.seal_buf]
  refine forall₂_congr fun k hk => ?_
  rw [bufBit_loaded (by omega) (by omega)]

end Sys2Proof.Proofs.SourceVerify

/-! ### The host program (20_memory.md R70) -/

namespace Sys2Proof.Proofs.HostProtocol

open Sys2Proof.Machine Sys2Proof.Proofs.Registers Sys2Proof.Proofs.Loading Sys2Proof.Proofs.HostAccess
  Sys2Proof.Proofs.SourceVerify

theorem statusWord_sd (b : Block) : (statusWord b).getLsbD 0 = b.sd := getLsbD_statusWord b 0

theorem statusWord_cd (b : Block) : (statusWord b).getLsbD 1 = b.cd := getLsbD_statusWord b 1

theorem statusWord_match (b : Block) : (statusWord b).getLsbD 2 = matchV b := getLsbD_statusWord b 2

/-- STATUS of a compared block stands for the result of the comparison (R13, R137). -/
theorem outcomeOf_compared {b : Block} (hcd : b.cd = true) :
    outcomeOf (statusWord b) = some (if matchV b then .valid else .invalidChecksum) := by
  rw [outcomeOf, statusWord_cd, statusWord_match, hcd, if_pos rfl]

theorem hostRead_status {s : State} {b : Block} (hs : Ready s b) :
    ∃ t, hostRead 0x04#8 s = some (statusWord b, t) ∧ Ready t b :=
  hostRead_ready hs (r := .status) rfl

/-- Steps 6 to 10 of R70 on a sealed block with 32·c entropy bits: the host's digest is that of the entropy bytes. -/
theorem finishValidation_sealed (hash : List Byte → Digest) {n c : Nat} (hn : Config.ent n / 32 = c) (hc : c ≤ 8)
    {b : Block} (hsd : b.sd = true) {s : State} (hs : Ready s b) :
    ∃ t, finishValidation hash n s = some
      (if matchV (judged b (hash ((List.range (4 * c)).map (entropyByte b)))) then .valid else .invalidChecksum,
        t) := by
  have hregs : ∀ j ∈ List.range c, j < 8 := fun j hj => by
    have := List.mem_range.mp hj
    omega
  obtain ⟨t, hreads, ht⟩ := hostReads_entropy hregs hs
  obtain ⟨u, hwrites, hu⟩ := writesTake_judge hsd (hash ((List.range (4 * c)).map (entropyByte b))) t ht
  obtain ⟨w, hread, -⟩ := hostRead_status hu
  refine ⟨w, ?_⟩
  simp [finishValidation, hn, hreads, flatMap_bytesOf_entWord, hwrites, hread, outcomeOf_compared (judged_cd _ _)]

/-- Steps 3 to 10 of R70 on the indices of a legal phrase, whatever the block held before. -/
theorem validateIndices_legal (hash : List Byte → Digest) {is : List WordIndex}
    (hlegal : is.length ∈ Config.legalCounts) {s : State} (hrst : s.rst = false) :
    ∃ t, validateIndices hash is s = some (if sourceVerify hash is then .valid else .invalidChecksum, t) := by
  obtain ⟨c, hc⟩ := exists_legalPhrase hlegal
  have ⟨_, h8, hlen⟩ := hc
  have hregs : Config.ent is.length / 32 = c := by
    rw [Config.ent]
    omega
  have hload := (writesTake_load (by omega) s.blk).append (writesTake_split (legalCount_loaded hc))
  obtain ⟨t, hwrites, ht⟩ := hload s (ready_self hrst)
  obtain ⟨u, hread, hu⟩ := hostRead_status ht
  obtain ⟨w, hfinish⟩ := finishValidation_sealed hash hregs h8 (Block.seal_sd _) hu
  refine ⟨w, ?_⟩
  rw [validateIndices, hwrites]
  simp only [Option.bind_eq_bind, Option.bind_some, hread, statusWord_sd, Block.seal_sd, if_true, hfinish,
    matchV_judged_sealed hc]

/-- A lookup that finds every token gives one index for each. -/
theorem length_of_mapM {τ : Type} {lookup : τ → Option WordIndex} {phrase : List τ} {is : List WordIndex}
    (h : phrase.mapM lookup = some is) : is.length = phrase.length := by
  induction phrase generalizing is with
  | nil => cases h; rfl
  | cons x phrase ih =>
    simp only [List.mapM_cons, Option.bind_eq_bind, Option.bind_eq_some_iff] at h
    obtain ⟨_, -, rest, hrest, his⟩ := h
    cases his
    simp [ih hrest]

/-- Settles O48: the token count and the lookup are the host's own, and on the indices of a legal phrase the block's
MATCH is the source's verdict (`matchV_judged_sealed`). -/
theorem protocolRefinesTheSource : Obligations.ProtocolRefinesTheSource := by
  unfold Obligations.ProtocolRefinesTheSource
  intro τ lookup hash phrase s hrst
  rw [validatePhrase, Config.legalCounts]
  by_cases hlegal : phrase.length ∈ [12, 15, 18, 21, 24]
  · rw [if_neg (not_not.mpr hlegal), if_neg (not_not.mpr hlegal)]
    cases hmap : phrase.mapM lookup with
    | none => exact ⟨s, rfl⟩
    | some is => exact validateIndices_legal hash (length_of_mapM hmap ▸ hlegal) hrst
  · rw [if_pos hlegal, if_pos hlegal]
    exact ⟨s, rfl⟩

end Sys2Proof.Proofs.HostProtocol

/-! ### The bus: the window, the command write, the errors and repetition (20_memory.md R51, R57 to R60) -/

namespace Sys2Proof.Proofs.Bus

open Sys2Proof.Machine Sys2Proof.Proofs.Commands Sys2Proof.Proofs.Registers Sys2Proof.Proofs.HostAccess
  Sys2Proof.Proofs.HostProtocol

/-! The window -/

theorem portOffset_inside {base addr : Nat} (h : base ≤ addr ∧ addr ≤ base + 0xFF) :
    portOffset base addr = some (BitVec.ofNat 8 (addr - base)) :=
  if_pos ⟨h.1, by rw [Config.window]; omega⟩

theorem portOffset_outside {base addr : Nat} (h : addr < base ∨ base + 0xFF < addr) : portOffset base addr = none :=
  if_neg (by rw [Config.window]; omega)

theorem portOffset_eq_none_iff (base addr : Nat) :
    portOffset base addr = none ↔ addr < base ∨ base + 0xFF < addr := by
  refine ⟨fun h => ?_, portOffset_outside⟩
  by_contra hin
  rw [portOffset_inside (by omega)] at h
  cases h

/-- No two addresses of a window share an offset: the 8 bits hold address - BASE (R51). -/
theorem portOffset_eq_some_iff (base addr : Nat) (off : Offset) :
    portOffset base addr = some off ↔ addr = base + off.toNat := by
  have hoff := off.isLt
  by_cases hin : base ≤ addr ∧ addr ≤ base + 0xFF
  · rw [portOffset_inside hin, Option.some_inj, ← BitVec.toNat_inj, BitVec.toNat_ofNat, Nat.mod_eq_of_lt (by omega)]
    omega
  · rw [portOffset_outside (by omega)]
    refine iff_of_false (fun h => by cases h) (by omega)

/-- Settles O50: `portOffset` is the difference inside the window and none outside it. -/
theorem windowDecodesItsOffsets : Obligations.WindowDecodesItsOffsets := by
  unfold Obligations.WindowDecodesItsOffsets
  refine ⟨portOffset_eq_some_iff, portOffset_eq_none_iff, fun s base addr mk hout => ?_⟩
  rw [State.busAccess, portOffset_outside hout]

/-! The command write -/

@[simp] theorem tableWord_toNat (v : Word) : tableWord 32 v.toNat = v := by
  rw [tableWord, Nat.mod_eq_of_lt v.isLt, BitVec.ofNat_toNat, BitVec.setWidth_eq]

/-- Settles O6: the step takes the command write, and `execute` runs what the word decodes to. -/
theorem stepRunsTheDecodedCommand : Obligations.StepRunsTheDecodedCommand := by
  unfold Obligations.StepRunsTheDecodedCommand
  refine ⟨fun s rest v i hrst hpending hdecode _ => ?_, fun s v i hdecode => ?_⟩
  · rw [step_takes hpending]
    exact (takeEvent_cmdWrite (by exact hrst) v).trans (execute_command hdecode _)
  · rw [State.withFetchWord, tableWord_toNat, step_offer]
    exact (takeEvent_cmdWrite rfl v).trans (execute_command hdecode _)

/-! Accepted and refused accesses -/

/-- The registers a write is accepted at (R58 (e)). -/
def writable : Reg → Bool
  | .cmd | .digestW _ => true
  | _ => false

/-- The read-only registers, by their offsets (R32). -/
theorem writable_eq_false_iff (r : Reg) :
    writable r = false ↔ r.offset.toNat = 0x04 ∨ r.offset.toNat = 0x08 ∨ r.offset.toNat = 0x0C
      ∨ r.offset.toNat = 0x10 ∨ (0x20 ≤ r.offset.toNat ∧ r.offset.toNat < 0x40)
      ∨ (0x60 ≤ r.offset.toNat ∧ r.offset.toNat < 0x84) := by
  cases r with
  | entW j | digestW j | accW j => revert j; decide
  | cmd | status | wcount | params | csbits => decide

theorem offset_eq_zero_iff (r : Reg) : r.offset.toNat = 0 ↔ r = .cmd := by
  cases r with
  | entW j | digestW j | accW j => revert j; decide
  | cmd | status | wcount | params | csbits => decide

theorem exists_reg {off : Offset} (h : regAt off ≠ none) : ∃ r : Reg, off = r.offset := by
  obtain ⟨r, hr⟩ := Option.ne_none_iff_exists'.mp h
  exact ⟨r, offset_of_regAt hr⟩

section Access

variable {s : State}

theorem memRead_size {size : Nat} (h : size ≠ 4) (off : Offset) : memRead off size s = .next (s.respond .err) := by
  simp [memRead, busError, h]

theorem memWrite_size {size : Nat} (h : size ≠ 4) (off : Offset) (v : Word) :
    memWrite off size v s = .next (s.respond .err) := by
  simp [memWrite, busError, h]

theorem memRead_noReg {off : Offset} (h : regAt off = none) (size : Nat) :
    memRead off size s = .next (s.respond .err) := by
  simp [memRead, busError, h]

theorem memWrite_noReg {off : Offset} (h : regAt off = none) (size : Nat) (v : Word) :
    memWrite off size v s = .next (s.respond .err) := by
  simp [memWrite, busError, h]

theorem memRead_cmd (size : Nat) : memRead Reg.cmd.offset size s = .next (s.respond .err) := by
  simp [memRead, busError, readReg]

theorem memWrite_readOnly {r : Reg} (h : writable r = false) (size : Nat) (v : Word) :
    memWrite r.offset size v s = .next (s.respond .err) := by
  cases r with
  | cmd | digestW j => cases h
  | status | wcount | params | csbits | entW j | accW j => simp [memWrite, busError]

/-- A command leaves the response it is given, whatever error it raises (R59). -/
theorem response_of_execute {v : Word} {t : State} (h : execute v s = .next t) : t.response = s.response := by
  cases hd : decode v with
  | command i =>
    rw [execute_command hd] at h
    rw [(exec_cases h).1]
    rfl
  | illegal why =>
    rw [execute_illegal hd] at h
    cases h
    rfl

theorem memWrite_writable {r : Reg} (hr : writable r = true) {v : Word} {t : State}
    (h : memWrite r.offset 4 v s = .next t) : t.response = some .ok := by
  cases r with
  | cmd => exact response_of_execute h
  | digestW j =>
    rw [memWrite_digest] at h
    cases h
    rfl
  | status | wcount | params | csbits | entW j | accW j => cases hr

end Access

/-- Settles O26: an access is refused by its size, for want of a register at its offset, or by the register itself. -/
theorem busErrorsAreExactlyTheListed : Obligations.BusErrorsAreExactlyTheListed := by
  unfold Obligations.BusErrorsAreExactlyTheListed
  intro s off size v hrst
  dsimp only
  rw [step_offer, step_offer, takeEvent_read hrst, takeEvent_write hrst, ← regAt_none_iff]
  refine ⟨fun h => ?_, fun h => ?_, fun h => ?_, fun h t ht => ?_⟩
  · rcases h with (hsize | hnone) | hzero
    · exact memRead_size hsize off
    · exact memRead_noReg hnone size
    · have hoff : off = Reg.cmd.offset := BitVec.eq_of_toNat_eq hzero
      exact hoff ▸ memRead_cmd size
  · obtain ⟨⟨hsize, hsome⟩, hzero⟩ : (size = 4 ∧ regAt off ≠ none) ∧ off.toNat ≠ 0 := by simpa using h
    obtain ⟨r, rfl⟩ := exists_reg hsome
    subst hsize
    obtain ⟨d, hd⟩ := readReg_isSome s.blk (mt (offset_eq_zero_iff r).mpr hzero)
    exact ⟨d, memRead_reg hd⟩
  · by_cases hnone : regAt off = none
    · exact memWrite_noReg hnone size v
    rcases h with (hsize | hnone') | hro
    · exact memWrite_size hsize off v
    · exact absurd hnone' hnone
    · obtain ⟨r, rfl⟩ := exists_reg hnone
      exact memWrite_readOnly ((writable_eq_false_iff r).mpr hro) size v
  · obtain ⟨hbad, hro⟩ := not_or.mp h
    obtain ⟨hsize, hsome⟩ := not_or.mp hbad
    obtain ⟨r, rfl⟩ := exists_reg hsome
    rw [not_not.mp hsize] at ht
    exact memWrite_writable (by simpa using mt (writable_eq_false_iff r).mp hro) ht

/-- Settles O27: the write is `Block.writeDigest`, and with CD = 0 the read-time values MATCH and EXPCS are 0. -/
theorem digestWriteStoresAndClearsCompare : Obligations.DigestWriteStoresAndClearsCompare := by
  unfold Obligations.DigestWriteStoresAndClearsCompare
  intro s j v hrst
  have hstore : (s.blk.writeDigest j v).dig[j] = v := by simp
  refine ⟨(s.respond .ok).setBlk (s.blk.writeDigest j v), step_digestWrite hrst j v, rfl, hstore, fun k hk => ?_,
    ⟨_, readsAs_of_readReg (by exact hrst) (r := .status) rfl rfl, ?_, ?_⟩,
    ⟨_, readsAs_of_readReg (by exact hrst) (r := .csbits) rfl rfl, ?_⟩,
    readsAs_of_readReg (by exact hrst) (r := .digestW j) (congrArg some hstore) rfl⟩
  · have hne : (j : ℕ) ≠ k := fun h => hk (Fin.ext h.symm)
    simp [hne]
  · rw [statusWord_cd]
    rfl
  · rw [statusWord_match]
    rfl
  · rw [csbitsWord_expCs]
    rfl

/-! Repetition -/

section Repetition

variable {s t : State}

/-- A second CLEAR, SPLIT or COMPARE meets the same check, and sets what is set already (R57). -/
theorem exec_clear_again (h : exec .clear s = .next t) : exec .clear t = .next t := by
  cases h
  rfl

theorem exec_split_again (h : exec .split s = .next t) : exec .split t = .next t := by
  cases hl : legalCount s.blk.w
  · cases (exec_split_illegal hl).symm.trans h
    rw [exec_split_illegal (by simpa using hl), State.setBlk_setBlk, State.setBlk_blk, Block.raise_raise]
  · cases (exec_split_legal hl).symm.trans h
    exact exec_split_legal (by exact hl)

theorem exec_compare_again (h : exec .compare s = .next t) : exec .compare t = .next t := by
  cases hsd : s.blk.sd
  · cases (exec_compare_open hsd).symm.trans h
    rw [exec_compare_open (by simpa using hsd), State.setBlk_setBlk, State.setBlk_blk, Block.raise_raise]
  · cases (exec_compare_sealed hsd).symm.trans h
    exact exec_compare_sealed (by exact hsd)

/-- A PUSH that raised SEQ or OVERFLOW raises it again. -/
theorem exec_push_again {idx : WordIndex} (hraises : s.blk.sd = true ∨ s.blk.w.toNat = 24)
    (h : exec (.push idx) s = .next t) : exec (.push idx) t = .next t := by
  cases hsd : s.blk.sd
  · have hw : s.blk.w.toNat = 24 := hraises.resolve_left (by simp [hsd])
    cases (exec_push_full idx hsd hw).symm.trans h
    rw [exec_push_full idx (by simpa using hsd) (by simpa using hw), State.setBlk_setBlk, State.setBlk_blk,
      Block.raise_raise]
  · cases (exec_push_sealed idx hsd).symm.trans h
    rw [exec_push_sealed idx (by simpa using hsd), State.setBlk_setBlk, State.setBlk_blk, Block.raise_raise]

theorem writeDigest_again (b : Block) (j : Fin 8) (v : Word) :
    (b.writeDigest j v).writeDigest j v = b.writeDigest j v := by
  simp [Block.writeDigest]

theorem digestWrite_again {j : Fin 8} {v : Word} (hrst : s.rst = false)
    (h : step (s.offer (.access (writeReq (Reg.digestW j).offset v))) = .next t) :
    step (t.offer (.access (writeReq (Reg.digestW j).offset v))) = .next t := by
  cases (step_digestWrite hrst j v).symm.trans h
  rw [step_digestWrite (by exact hrst), State.setBlk_blk, writeDigest_again]
  rfl

/-- A read changes the response alone. -/
theorem step_read_cases (s : State) (off : Offset) (size : Nat) :
    ∃ a, step (s.offer (.access (.read off size))) = .next (s.respond a) := by
  cases hrst : s.rst
  · rw [step_offer, takeEvent_read hrst]
    rcases memRead_cases off size s with h | ⟨d, h⟩
    · exact ⟨_, h⟩
    · exact ⟨_, h⟩
  · exact ⟨.err, takeEvent_inReset hrst (.read off size)⟩

/-- A read does not depend on the response before it. -/
theorem step_read_respond (s : State) (a : Response) (off : Offset) (size : Nat) :
    step ((s.respond a).offer (.access (.read off size))) = step (s.offer (.access (.read off size))) := rfl

end Repetition

/-- Settles O22: a repeated command meets the check it met before, and a read answers from the block, which it leaves
as it was. -/
theorem repetitionIsIdempotent : Obligations.RepetitionIsIdempotent := by
  unfold Obligations.RepetitionIsIdempotent
  refine ⟨fun i s t hi h => ?_, fun idx s t hraises h => exec_push_again hraises h,
    fun s t j v hrst h => digestWrite_again hrst h, fun s t off size h => ?_⟩
  · rcases hi with rfl | rfl | rfl | rfl
    · rfl
    · exact exec_clear_again h
    · exact exec_split_again h
    · exact exec_compare_again h
  · obtain ⟨a, ha⟩ := step_read_cases s off size
    cases ha.symm.trans h
    exact ⟨rfl, (step_read_respond s a off size).trans ha⟩

end Sys2Proof.Proofs.Bus

/-! ### The encoding: one word for each command, and the words that have none (30_encoding.md) -/

namespace Sys2Proof.Proofs.Encoding

open Sys2Proof.Machine Sys2Proof.Proofs.BlockChanges

/-- Settles O1: the three fields of an encoded command are the command's own, so every check of R84 passes
(`decode_encode`). -/
theorem decodeOfEncodeIsTheCommand : Obligations.DecodeOfEncodeIsTheCommand :=
  fun i _ => decode_encode i

/-- Settles O2: a word is its three fields, and those of a decoded word are the command's (`encode_of_decode`). -/
theorem encodeOfDecodedIsTheWord : Obligations.EncodeOfDecodedIsTheWord :=
  fun _ _ hdecode => encode_of_decode hdecode

/-! The map of R89 -/

/-- The legal words are the encodings, one for each command. -/
theorem decode_eq_command_iff {v : Word} {i : Instr} : decode v = .command i ↔ encode i = v :=
  ⟨encode_of_decode, fun h => h ▸ decode_encode i⟩

theorem encode_injective : Function.Injective encode := fun i _ h =>
  Decoded.command.inj ((decode_encode i).symm.trans (decode_eq_command_iff.mpr h.symm))

theorem setOf_legal_eq_range_encode : {v : Word | ∃ i, decode v = .command i} = Set.range encode :=
  Set.ext fun _ => exists_congr fun _ => decode_eq_command_iff

/-- A row with all 32 bits in its mask: its pattern is the command's word. -/
theorem decode_iff_of_fullMask (v : Word) (i : Instr) :
    decode v = .command i ↔ v &&& 0xFFFFFFFF#32 = encode i := by
  rw [decode_eq_command_iff, show 0xFFFFFFFF#32 = BitVec.allOnes 32 from rfl, BitVec.and_allOnes, eq_comm]

/-- PUSH's mask keeps OP and RSV and drops IDX (R83, R89). -/
theorem and_pushMask (v : Word) : v &&& 0xFFFFF800#32 = opField v ++ (rsvField v ++ 0#11) := by
  calc v &&& 0xFFFFF800#32
      = (opField v ++ (rsvField v ++ idxField v)) &&& (BitVec.allOnes 4 ++ (BitVec.allOnes 17 ++ 0#11)) :=
        congrArg (· &&& 0xFFFFF800#32) (word_eq_fields v)
    _ = opField v ++ (rsvField v ++ 0#11) := by
        rw [BitVec.and_append, BitVec.and_append, BitVec.and_allOnes, BitVec.and_allOnes, BitVec.and_zero]

theorem word_eq_iff_fields (v v' : Word) :
    v = v' ↔ opField v = opField v' ∧ rsvField v = rsvField v' ∧ idxField v = idxField v' := by
  refine ⟨fun h => h ▸ ⟨rfl, rfl, rfl⟩, fun ⟨hop, hrsv, hidx⟩ => ?_⟩
  rw [word_eq_fields v, word_eq_fields v', hop, hrsv, hidx]

/-- The row of PUSH: OP is 2, RSV is 0, and IDX is anything. -/
theorem decode_push_iff (v : Word) :
    decode v = .command (.push (idxField v)) ↔ v &&& 0xFFFFF800#32 = 0x20000000#32 := by
  have hpattern : 0x20000000#32 = encode (.push 0#11) := rfl
  rw [decode_eq_command_iff, and_pushMask, hpattern, eq_comm, word_eq_iff_fields, word_eq_iff_fields,
    opField_fields, rsvField_fields, idxField_fields]
  simp [opOf, idxOf]

/-- A word that decodes to a PUSH pushes its own IDX field. -/
theorem exists_push_iff (v : Word) :
    (∃ idx, decode v = .command (.push idx)) ↔ v &&& 0xFFFFF800#32 = 0x20000000#32 := by
  rw [← decode_push_iff]
  refine ⟨fun ⟨idx, h⟩ => ?_, fun h => ⟨_, h⟩⟩
  obtain ⟨-, -, hidx⟩ := fields_of_decode h
  rw [hidx]
  exact h

theorem exists_instr_iff {p : Instr → Prop} :
    (∃ i, p i) ↔ p .nop ∨ p .clear ∨ (∃ idx, p (.push idx)) ∨ p .split ∨ p .compare := by
  constructor
  · rintro ⟨_ | _ | idx | _ | _, h⟩ <;> tauto
  · rintro (h | h | ⟨_, h⟩ | h | h) <;> exact ⟨_, h⟩

/-- Row by row: a word decodes to a command if and only if it matches a row. -/
theorem legal_iff_matches_row (v : Word) :
    (∃ i, decode v = .command i) ↔ ∃ r ∈ opcodeRows, v &&& r.mask = r.pattern := by
  rw [exists_instr_iff, exists_push_iff]
  simp only [decode_iff_of_fullMask, opcodeRows, List.exists_mem_cons_iff, List.not_mem_nil, false_and, exists_false,
    or_false]
  rfl

/-- Every mask keeps all of OP. -/
theorem opField_of_matches {v : Word} {r : OpcodeRow} (hr : r ∈ opcodeRows) (h : v &&& r.mask = r.pattern) :
    opField v = opField r.pattern := by
  have hmask : ∀ r ∈ opcodeRows, opField r.mask = BitVec.allOnes 4 := by decide
  calc opField v = opField v &&& opField r.mask := by rw [hmask r hr, BitVec.and_allOnes]
    _ = opField (v &&& r.mask) := BitVec.extractLsb'_and.symm
    _ = opField r.pattern := by rw [h]

/-- The rows are told apart by OP. -/
theorem row_eq_of_opField : ∀ r ∈ opcodeRows, ∀ r' ∈ opcodeRows, opField r.pattern = opField r'.pattern → r = r' := by
  decide

/-- The commands: the 2048 PUSHes and the four without an operand. -/
def instrEquiv : Instr ≃ WordIndex ⊕ Fin 4 where
  toFun
    | .nop => .inr 0
    | .clear => .inr 1
    | .push idx => .inl idx
    | .split => .inr 2
    | .compare => .inr 3
  invFun
    | .inl idx => .push idx
    | .inr 0 => .nop
    | .inr 1 => .clear
    | .inr 2 => .split
    | .inr 3 => .compare
  left_inv i := by cases i <;> rfl
  right_inv
    | .inl _ => rfl
    | .inr j => by fin_cases j <;> rfl

theorem card_bitVec (n : Nat) : Nat.card (BitVec n) = 2 ^ n :=
  (Nat.card_congr BitVec.equivFin.toEquiv).trans (Nat.card_fin _)

theorem card_instr : Nat.card Instr = 2052 := by
  rw [Nat.card_congr instrEquiv, Nat.card_sum, card_bitVec, Nat.card_fin]
  rfl

theorem ncard_legal : Set.ncard {v : Word | ∃ i, decode v = .command i} = 2052 := by
  rw [setOf_legal_eq_range_encode, Set.ncard_range_of_injective encode_injective, card_instr]

theorem ncard_notLegal : Set.ncard {v : Word | ¬ ∃ i, decode v = .command i} = 2 ^ 32 - 2052 := by
  rw [← Set.compl_ofPred, Set.ncard_compl, card_bitVec, ncard_legal]

/-- Settles O3: the legal words are the range of `encode`, which the rows describe one by one and OP keeps apart; they
are as many as the commands, `encode` being injective. -/
theorem opcodeMapIsCompleteAndDisjoint : Obligations.OpcodeMapIsCompleteAndDisjoint :=
  ⟨legal_iff_matches_row,
    fun _ r r' hr hr' h h' =>
      row_eq_of_opField r hr r' hr' ((opField_of_matches hr h).symm.trans (opField_of_matches hr' h')),
    fun v => ⟨decode_iff_of_fullMask v .nop, decode_iff_of_fullMask v .clear, decode_push_iff v,
      decode_iff_of_fullMask v .split, decode_iff_of_fullMask v .compare⟩,
    ncard_legal, ncard_notLegal⟩

/-! The illegal words -/

/-- The words of R85 fail the checks of R84. -/
theorem decode_illegal_of_fields {v : Word}
    (h : 5 ≤ (v.extractLsb' 28 4).toNat ∨ v.extractLsb' 11 17 ≠ 0#17
      ∨ (v.extractLsb' 28 4 ≠ 2#4 ∧ v.extractLsb' 0 11 ≠ 0#11)) : ∃ why, decode v = .illegal why :=
  (decode_illegal_iff v).mpr (h.imp_left BitVec.lt_def.mpr)

/-- An illegal word on the bus is answered OK and raises ILLEGAL (R85, R151). -/
theorem step_cmdWrite_illegal {s : State} {v : Word} (hrst : s.rst = false) (h : ∃ why, decode v = .illegal why) :
    step (s.offer (cmdWrite v)) = .next ((s.respond .ok).setBlk (s.blk.raise .illegal)) := by
  obtain ⟨why, hdecode⟩ := h
  rw [step_offer, takeEvent_cmdWrite hrst, execute_illegal hdecode, State.respond_blk]

/-- Settles O5: the words of R85 are the ones `decode` refuses, and their write is the raise of ILLEGAL alone. -/
theorem illegalWordSetsOnlyIllegal : Obligations.IllegalWordSetsOnlyIllegal := by
  unfold Obligations.IllegalWordSetsOnlyIllegal
  refine ⟨fun s v hrst hfields => step_cmdWrite_illegal hrst (decode_illegal_of_fields hfields),
    fun s v hrst hv => ?_⟩
  have hillegal : ∃ why, decode v = .illegal why := by
    rcases hv with rfl | rfl
    · exact ⟨.reservedOp, by decide⟩
    · exact ⟨.operandOnNone, by decide⟩
  exact ⟨_, step_cmdWrite_illegal hrst hillegal, rfl, rfl, rfl, rfl, rfl⟩

/-! The pseudo-instructions of R88 -/

/-- The word of PUSH as R89 writes it: the pattern with the index in its low bits. -/
theorem encode_push (idx : WordIndex) : encode (.push idx) = 0x20000000#32 ||| idx.setWidth 32 := by
  have hidx : idx.toNat < 2 ^ 32 := lt_of_lt_of_le idx.isLt (by decide)
  apply BitVec.eq_of_toNat_eq
  calc (encode (.push idx)).toNat = 2 <<< 28 ||| (0#17 ++ idx).toNat := BitVec.toNat_append 2#4 (0#17 ++ idx)
    _ = 2 <<< 28 ||| idx.toNat := by rw [BitVec.toNat_append, BitVec.toNat_zero, Nat.zero_shiftLeft, Nat.zero_or]
    _ = (0x20000000#32 ||| idx.setWidth 32).toNat := by
      rw [BitVec.toNat_or, BitVec.toNat_setWidth, Nat.mod_eq_of_lt hidx]
      rfl

theorem expand_load (is : List WordIndex) :
    (AsmLine.load is).expand
      = .write 0x00#8 4 0x10000000#32 :: is.map (fun i => .write 0x00#8 4 (0x20000000#32 ||| i.setWidth 32)) := by
  simp only [← encode_push]
  rfl

/-- Bit k of digest word j, the first at bit 31, is digest bit 32j + k (R12, R88). -/
theorem getMsbD_digestWord (d : Digest) {j k : Nat} (hj : j < 8) (hk : k < 32) :
    (digestWord d j).getMsbD k = d.getMsbD (32 * j + k) := by
  rw [digestWord, BitVec.getMsbD_extractLsb', decide_eq_true hk, decide_eq_true (by omega), Bool.true_and,
    Bool.true_and]
  congr 1
  omega

theorem wf_readEnt_iff (n : Nat) : (AsmLine.readEnt n).wf = true ↔ n = 4 ∨ n = 5 ∨ n = 6 ∨ n = 7 ∨ n = 8 := by
  simp only [AsmLine.wf, Bool.and_eq_true, decide_eq_true_eq]
  omega

/-- Settles O49: the lines are maps over the indices and over the register numbers; `encode_push` and
`getMsbD_digestWord` give the words written. -/
theorem pseudoInstructionsExpandAsStated : Obligations.PseudoInstructionsExpandAsStated := by
  unfold Obligations.PseudoInstructionsExpandAsStated
  refine ⟨fun is => ⟨expand_load is, by simp [expand_load]⟩, fun d => ⟨by simp [AsmLine.expand], fun j hj => ?_⟩,
    fun n => ⟨by simp [AsmLine.expand], fun j hj => ?_⟩, fun is => by simp [AsmLine.wf], wf_readEnt_iff⟩
  · exact ⟨digestWord d j, by simp [AsmLine.expand, hj, writeReq], fun k hk => getMsbD_digestWord d hj hk⟩
  · simp [AsmLine.expand, hj, readReq]

/-- Settles O4: each word of R90 is decoded, and each command encoded. -/
theorem encodingExamplesDecodeAsWritten : Obligations.EncodingExamplesDecodeAsWritten := by
  unfold Obligations.EncodingExamplesDecodeAsWritten
  decide

end Sys2Proof.Proofs.Encoding

/-! ### NOP (40_control.md R100) -/

namespace Sys2Proof.Proofs.Control

open Sys2Proof.Machine Sys2Proof.Proofs.Encoding

/-- NOP (R100). -/
theorem exec_nop (s : State) : exec .nop s = .next s := rfl

/-- With OP = 0 every bit below OP is 0 in a legal word: NOP takes no operand (R82, R84). -/
theorem decode_illegal_of_opZero {v : Word} (hop : v.extractLsb' 28 4 = 0#4)
    (hlow : v.extractLsb' 11 17 ≠ 0#17 ∨ v.extractLsb' 0 11 ≠ 0#11) : ∃ why, decode v = .illegal why := by
  have hnotPush : v.extractLsb' 28 4 ≠ 2#4 := by simp [hop]
  rcases hlow with hrsv | hidx
  · exact decode_illegal_of_fields (.inr (.inl hrsv))
  · exact decode_illegal_of_fields (.inr (.inr ⟨hnotPush, hidx⟩))

/-- Settles O9: NOP's meaning is the state it is given, and the other words with OP = 0 are refused by the decoder, so their
write is the raise of ILLEGAL alone (`step_cmdWrite_illegal`). -/
theorem nopDoesNothing : Obligations.NopDoesNothing := by
  unfold Obligations.NopDoesNothing
  exact ⟨exec_nop, by decide,
    fun _ _ hrst hop hlow => step_cmdWrite_illegal hrst (decode_illegal_of_opZero hop hlow)⟩

end Sys2Proof.Proofs.Control

/-! ### A run over pending writes (20_memory.md R63)

The claims about command sequences speak of a run over pending events; `WritesTake` speaks of a host that offers its
writes one by one. What is still pending does not enter an access, so the block takes the same steps in both. -/

namespace Sys2Proof.Proofs.PendingRun

open Sys2Proof.Machine Sys2Proof.Proofs.HostAccess Sys2Proof.Proofs.Loading

/-- The state with other events pending. -/
def withPending (es : List Event) (s : State) : State := { s with pending := es }

/-- A function of the next state; faults and refusals stay. -/
def mapNext (f : State → State) : Result → Result
  | .next t => .next (f t)
  | .fault e => .fault e
  | .refused ρ => .refused ρ

section Frame

variable (es : List Event) (s : State)

/-- No command looks at the pending events. -/
theorem exec_withPending (i : Instr) : exec i (withPending es s) = mapNext (withPending es) (exec i s) := by
  cases i with
  | nop | clear => rfl
  | push idx =>
    simp only [exec, execPush, appendIndex, apply_ite (mapNext _)]
    rfl
  | split | compare =>
    simp only [exec, execSplit, execCompare, apply_ite (mapNext _)]
    rfl

theorem execute_withPending (v : Word) :
    execute v (withPending es s) = mapNext (withPending es) (execute v s) := by
  cases hd : decode v with
  | command i => rw [execute_command hd, execute_command hd, exec_withPending]
  | illegal why => rw [execute_illegal hd, execute_illegal hd]; rfl

theorem memWrite_withPending (off : Offset) (size : Nat) (v : Word) :
    memWrite off size v (withPending es s) = mapNext (withPending es) (memWrite off size v s) := by
  unfold memWrite
  split
  · rfl
  · split
    · exact execute_withPending es (s.respond .ok) v
    · rfl
    · rfl

theorem memRead_withPending (off : Offset) (size : Nat) :
    memRead off size (withPending es s) = mapNext (withPending es) (memRead off size s) := by
  simp only [memRead, withPending]
  split
  · rfl
  · split
    · rfl
    · split <;> rfl

/-- An access is served from the block and the reset level, whatever is pending. -/
theorem serve_withPending (r : Request) : serve r (withPending es s) = mapNext (withPending es) (serve r s) := by
  cases r with
  | read off size =>
    simp only [serve, apply_ite (mapNext _), ← memRead_withPending]
    rfl
  | write off size v =>
    simp only [serve, apply_ite (mapNext _), ← memWrite_withPending]
    rfl

end Frame

theorem run_succ {s t : State} (h : step s = .next t) (k : Nat) :
    Host.Core.run Sys2Proof.core (k + 1) s = Host.Core.run Sys2Proof.core k t := by
  simp [Host.Core.run, Sys2Proof.core, h]

theorem serve_of_hostAccess {r : Request} {a : Response} {s t : State} (h : hostAccess r s = some (a, t)) :
    serve r s = .next t := by
  unfold hostAccess at h
  split at h
  next u hu =>
    obtain ⟨_, -, hau⟩ := Option.map_eq_some_iff.mp h
    cases hau
    exact hu
  next => cases h

/-- Writes that a host sees answered OK one by one, the block takes in a run when they are pending. -/
theorem run_of_hostWrites {rs : List Request} {s t : State} (h : hostWrites rs s = some t) (rest : List Event) :
    Host.Core.run Sys2Proof.core rs.length (withPending (requestEvents rs ++ rest) s)
      = .next (withPending rest t) := by
  induction rs generalizing s with
  | nil => cases h; rfl
  | cons r rs ih =>
    unfold hostWrites at h
    split at h
    next u hu =>
      have hstep : step (withPending (requestEvents (r :: rs) ++ rest) s)
          = .next (withPending (requestEvents rs ++ rest) u) :=
        (serve_withPending (requestEvents rs ++ rest) s r).trans (by rw [serve_of_hostAccess hu]; rfl)
      exact (run_succ hstep rs.length).trans (ih h)
    next => cases h

/-- Pending writes take the block where the host's writes take it, and the later events stay pending. -/
theorem run_of_writesTake {rs : List Request} {b b' : Block} (h : WritesTake rs b b') {s : State} (hs : Ready s b)
    {rest : List Event} (hp : s.pending = requestEvents rs ++ rest) :
    ∃ t, Host.Core.run Sys2Proof.core rs.length s = .next t ∧ t.pending = rest ∧ Ready t b' := by
  obtain ⟨t, ht, hready⟩ := h s hs
  have hrun := run_of_hostWrites ht rest
  rw [← hp] at hrun
  exact ⟨withPending rest t, hrun, rfl, hready⟩

theorem commandEvents_eq (cs : List Instr) : commandEvents cs = requestEvents (cs.map commandReq) := by
  simp [commandEvents, requestEvents, cmdWrite, commandReq, writeReq]

/-- The events of `CLEAR; PUSH i_0; …; PUSH i_{n-1}` are those of LOAD (R88, R110). -/
theorem commandEvents_loadCommands (is : List WordIndex) :
    commandEvents (loadCommands is) = requestEvents (AsmLine.load is).expand := by
  rw [commandEvents_eq, loadCommands, List.map_cons, List.map_map]
  rfl

/-- CLEAR and at most 24 pending PUSHes leave the loaded block (R110). -/
theorem run_load {s : State} {is : List WordIndex} {rest : List Event} (hrst : s.rst = false)
    (hlen : is.length ≤ 24) (hp : s.pending = commandEvents (loadCommands is) ++ rest) :
    ∃ t, Host.Core.run Sys2Proof.core (is.length + 1) s = .next t ∧ t.pending = rest ∧ t.blk = loaded is := by
  rw [commandEvents_loadCommands] at hp
  obtain ⟨t, hrun, hrest, -, hblk⟩ := run_of_writesTake (writesTake_load hlen s.blk) (ready_self hrst) hp
  exact ⟨t, by simpa [AsmLine.expand] using hrun, hrest, hblk⟩

/-- The same, for a run known to end in `t`. -/
theorem blk_of_run_load {s t : State} {is : List WordIndex} {rest : List Event} (hrst : s.rst = false)
    (hlen : is.length ≤ 24) (hp : s.pending = commandEvents (loadCommands is) ++ rest)
    (hrun : Host.Core.run Sys2Proof.core (is.length + 1) s = .next t) : t.blk = loaded is := by
  obtain ⟨u, hu, -, hblk⟩ := run_load hrst hlen hp
  cases hu.symm.trans hrun
  exact hblk

end Sys2Proof.Proofs.PendingRun

/-! ### The bit accumulator (41_bit_accumulator.md) -/

namespace Sys2Proof.Proofs.Accumulator

open Sys2Proof.Machine Sys2Proof.Proofs.Invariant Sys2Proof.Proofs.Commands Sys2Proof.Proofs.Loading
  Sys2Proof.Proofs.PendingRun

/-! What the loaded buffer holds (R110, R115) -/

/-- Bit m of index k stands at place 11k + m of the source's `pack`. -/
theorem getD_packIndices {is : List WordIndex} {k m : Nat} (hk : k < is.length) (hm : m < 11) :
    (packIndices is).getD (11 * k + m) false = (is[k]).getMsbD m := by
  induction is generalizing k with
  | nil => simp at hk
  | cons i is ih =>
    have hcons : packIndices (i :: is) = indexBits i ++ packIndices is := rfl
    have hlen := length_indexBits i
    rw [hcons]
    cases k with
    | zero =>
      rw [Nat.mul_zero, Nat.zero_add, List.getD_append _ _ _ _ (by omega)]
      simp [indexBits, hm]
    | succ k =>
      rw [List.getD_append_right _ _ _ _ (by omega), hlen, show 11 * (k + 1) + m - 11 = 11 * k + m by omega]
      exact ih (by simpa using hk)

/-- A stretch of BUF that shows the bits of x, most significant first, has the value of x (R10). -/
theorem seg_eq_toNat {b : BitBuf} {a n : Nat} (h : a + n ≤ 264) {x : BitVec n}
    (hbits : ∀ m, m < n → bufBit b (a + m) = x.getMsbD m) : seg b a n = x.toNat := by
  have hx : b.extractLsb' (264 - (a + n)) n = x := BitVec.eq_of_getMsbD_eq fun m hm => by
    rw [← hbits m hm, bufBit_eq_getLsbD _ (by omega), BitVec.getMsbD, BitVec.getLsbD_extractLsb',
      show 264 - (a + n) + (n - 1 - m) = 263 - (a + m) by omega]
    simp [hm, show n - 1 - m < n by omega]
  rw [seg, ← BitVec.extractLsb'_toNat, hx]

section Loaded

variable {is : List WordIndex} (hlen : is.length ≤ 24)

include hlen

theorem map_bufBit_loaded : (List.range (11 * is.length)).map (bufBit (loaded is).buf) = packIndices is := by
  refine List.ext_getElem (by simp) fun i hi hi' => ?_
  rw [List.length_map, List.length_range] at hi
  rw [List.getElem_map, List.getElem_range, bufBit_loaded hlen (by omega), List.getD_eq_getElem]

/-- `seg(BUF, 11k, 11) = i_k` (R115). -/
theorem seg_loaded {k : Nat} (hk : k < is.length) : seg (loaded is).buf (11 * k) 11 = (is[k]).toNat :=
  seg_eq_toNat (by omega) fun m hm => by rw [bufBit_loaded hlen (by omega), getD_packIndices hk hm]

/-- The bits from LEN on are 0 (INV1). -/
theorem bufBit_loaded_unused {i : Nat} (hi : 11 * is.length ≤ i) (hin : i < 264) :
    bufBit (loaded is).buf i = false := by
  rw [bufBit_loaded hlen hin, List.getD_eq_default _ _ (by simpa using hi)]

/-- Two sequences of one length with the same BUF are the same: each index is a stretch of it (R115). -/
theorem eq_of_loaded_buf {is' : List WordIndex} (hsame : is'.length = is.length)
    (hbuf : (loaded is).buf = (loaded is').buf) : is = is' :=
  List.ext_getElem hsame.symm fun k hk hk' => BitVec.eq_of_toNat_eq <| by
    rw [← seg_loaded hlen hk, hbuf, seg_loaded (hsame ▸ hlen) hk']

end Loaded

/-- BUF⟨i⟩ reads back in ACC_W[i div 32] at bit 31 - i mod 32 (R115). -/
theorem accWord_div_mod (b : Block) {i : Nat} (hi : i < 264) :
    (accWord b (i / 32)).getLsbD (31 - i % 32) = bufBit b.buf i := by
  rw [getLsbD_accWord b (by omega) (Nat.mod_lt i (by decide)), Nat.div_add_mod]

/-- Settles O44: the run leaves the loaded block (`run_load`), whose BUF is the source's `pack` (`map_bufBit_loaded`). -/
theorem pushSequenceIsPack : Obligations.PushSequenceIsPack := by
  unfold Obligations.PushSequenceIsPack
  intro s is rest hrst hlen hp
  obtain ⟨t, hrun, hrest, hblk⟩ := run_load hrst hlen hp
  exact ⟨t, hrun, hrest, by rw [hblk, map_bufBit_loaded hlen]⟩

/-- Settles O45: a run leaves the loaded block, whatever was there before, and each law is a fact about that block. -/
theorem accumulatorLaws : Obligations.AccumulatorLaws := by
  unfold Obligations.AccumulatorLaws
  refine ⟨fun s is rest hrst hlen hp => ?_, fun s s' t t' is is' rest rest' hrst hrst' hlen hsame hp hp' hrun hrun' => ?_⟩
  · obtain ⟨t, hrun, -, hblk⟩ := run_load hrst hlen hp
    have hw := loaded_w_toNat hlen
    refine ⟨t, hrun, ?_⟩
    rw [hblk]
    exact ⟨hw, congrArg (11 * ·) hw, fun k hk => seg_loaded hlen hk, fun i => bufBit_loaded_unused hlen,
      fun i => accWord_div_mod _, loaded_eq is⟩
  · rw [blk_of_run_load hrst hlen hp hrun, blk_of_run_load hrst' (hsame ▸ hlen) hp' (hsame ▸ hrun')]
    exact ⟨fun h => h ▸ rfl, eq_of_loaded_buf hlen hsame⟩

/-! One PUSH -/

/-- Settles O13: PUSH answers `Block.append` (`exec_push_open`), which writes the index's bits (`bufBit_writeIndex`), the
count, and nothing else. -/
theorem pushAppendsTheIndex : Obligations.PushAppendsTheIndex := by
  unfold Obligations.PushAppendsTheIndex
  intro idx s hsd hw
  refine ⟨s.blk.append idx, exec_push_open idx hsd hw, fun k hk => ?_, fun i hi hout => ?_, append_w_toNat idx hw,
    rfl, rfl, rfl, rfl, rfl, rfl, rfl, rfl⟩
  · rw [Block.append_buf, bufBit_writeIndex _ (by omega) _ (by omega), if_pos (by omega), Nat.add_sub_cancel_left]
  · rw [Block.append_buf, bufBit_writeIndex _ (by omega) _ hi, if_neg (by omega)]

/-- Settles O14: the check of SD comes first (R112, R153). -/
theorem pushAfterSplitIsRefused : Obligations.PushAfterSplitIsRefused :=
  fun idx _ hsd => exec_push_sealed idx hsd

/-- Settles O15: with SD = 0 the check of the count refuses the index. -/
theorem pushIntoFullBufferOverflows : Obligations.PushIntoFullBufferOverflows :=
  fun idx _ hsd hw => exec_push_full idx hsd hw

end Sys2Proof.Proofs.Accumulator

/-! ### The checksum extractor (42_checksum_extractor.md) -/

namespace Sys2Proof.Proofs.Extractor

open Sys2Proof.Machine Sys2Proof.Proofs.Commands Sys2Proof.Proofs.Registers Sys2Proof.Proofs.Loading
  Sys2Proof.Proofs.HostAccess Sys2Proof.Proofs.SourceVerify Sys2Proof.Proofs.PendingRun Sys2Proof.Proofs.Accumulator

/-! A stretch of BUF cut in two (R10) -/

/-- The first m bits of a stretch of m + n bits are the high part of its value. -/
theorem seg_head (b : BitBuf) {a m n : Nat} (h : a + (m + n) ≤ 264) : seg b a m = seg b a (m + n) / 2 ^ n := by
  have hshift : 264 - (a + m) = 264 - (a + (m + n)) + n := by omega
  rw [seg, seg, hshift, Nat.shiftRight_add, Nat.shiftRight_eq_div_pow _ n, Nat.add_comm m n, Nat.pow_add,
    Nat.mod_mul_right_div_self]

/-- The last n bits of a stretch of m + n bits are the low part of its value. -/
theorem seg_tail (b : BitBuf) (a m n : Nat) : seg b (a + m) n = seg b a (m + n) % 2 ^ n := by
  rw [seg, seg, Nat.add_assoc, Nat.mod_mod_of_dvd _ (Nat.pow_dvd_pow 2 (Nat.le_add_left n m))]

/-! A loaded and sealed phrase (R126) -/

section Sealed

variable {is : List WordIndex} {c : Nat} (hc : LegalPhrase is c)

include hc

/-- LOAD of a legal phrase and SPLIT, pending, leave its sealed block. -/
theorem run_load_split {s : State} {rest : List Event} (hrst : s.rst = false)
    (hp : s.pending = commandEvents (loadCommands is ++ [.split]) ++ rest) :
    ∃ t, Host.Core.run Sys2Proof.core (is.length + 2) s = .next t ∧ t.pending = rest ∧ t.blk = (loaded is).seal := by
  have ⟨_, h8, hlen⟩ := hc
  have hevents : commandEvents (loadCommands is ++ [.split])
      = requestEvents ((AsmLine.load is).expand ++ [commandReq .split]) := by
    rw [commandEvents_eq, List.map_append, loadCommands, List.map_cons, List.map_map]
    rfl
  have hwrites := (writesTake_load (by omega) s.blk).append (writesTake_split (legalCount_loaded hc))
  rw [hevents] at hp
  obtain ⟨t, hrun, hrest, -, hblk⟩ := run_of_writesTake hwrites (ready_self hrst) hp
  exact ⟨t, by simpa [AsmLine.expand] using hrun, hrest, hblk⟩

/-- The last index stands in the 11 - CS entropy bits before position ENT and the CS bits from there on. -/
theorem seg_loaded_last (hne : is ≠ []) :
    seg (loaded is).buf (11 * (is.length - 1)) (11 - c + c) = (is.getLast hne).toNat := by
  have ⟨_, h8, hlen⟩ := hc
  rw [Nat.sub_add_cancel (by omega), seg_loaded (by omega) (by omega), List.getLast_eq_getElem]

/-- ENT = 11·(n-1) + (11 - CS). -/
theorem last_place_add_head : 11 * (is.length - 1) + (11 - c) = 32 * c := by
  obtain ⟨h4, h8, hlen⟩ := hc
  omega

theorem csValue_sealed (hne : is ≠ []) : (csValue (loaded is).seal).toNat = (is.getLast hne).toNat % 2 ^ c := by
  rw [csValue_toNat (Block.seal_sd _), Block.seal_buf, entV_sealed hc, csV_sealed hc, ← last_place_add_head hc,
    seg_tail, seg_loaded_last hc hne]

theorem seg_last_entropy_bits (hne : is ≠ []) :
    seg (loaded is).buf (11 * (is.length - 1)) (11 - c) = (is.getLast hne).toNat / 2 ^ c := by
  have ⟨_, h8, hlen⟩ := hc
  rw [seg_head (n := c) _ (by omega), seg_loaded_last hc hne]

end Sealed

/-- Settles O46: position ENT cuts the last index's eleven bits into 11 - CS and CS, so its quotient and remainder by
2^CS are the two parts (`seg_head`, `seg_tail`). -/
theorem checksumIsTheTailOfTheLastIndex : Obligations.ChecksumIsTheTailOfTheLastIndex := by
  unfold Obligations.ChecksumIsTheTailOfTheLastIndex
  intro s is rest hne hrst hlegal hp
  obtain ⟨c, hc⟩ := exists_legalPhrase hlegal
  have ⟨_, h8, hlen⟩ := hc
  have hthird : is.length / 3 = c := by omega
  obtain ⟨t, hrun, -, hblk⟩ := run_load_split hc hrst hp
  refine ⟨t, hrun, ?_⟩
  rw [hblk, hthird, entV_sealed hc, csV_sealed hc]
  exact ⟨rfl, csValue_sealed hc hne, seg_last_entropy_bits hc hne, last_place_add_head hc, by omega, rfl, h8⟩

/-! One SPLIT -/

/-- 3 divides every legal count, so its ENT and CS are exact (R8, R123). -/
theorem sizes_seal {b : Block} (hw : b.w.toNat ∈ [12, 15, 18, 21, 24]) :
    3 * entV b.seal = 32 * b.w.toNat ∧ 3 * csV b.seal = b.w.toNat := by
  have hthird : ∀ n ∈ [12, 15, 18, 21, 24], n = 3 * (n / 3) := by decide
  have hn := hthird _ hw
  have hl : legalCount b.seal.w = true := (legalCount_iff _).mpr hw
  rw [entV_legal b.seal_sd hl, csV_legal b.seal_sd hl, Block.seal_w]
  omega

/-- Settles O16: SPLIT answers `Block.seal` (`exec_split_legal`), whose sizes divide exactly and whose reads are bits of
BUF (`csValue_bit`, `csValue_high`, `getMsbD_entropyByte`). -/
theorem splitSealsALegalCount : Obligations.SplitSealsALegalCount := by
  unfold Obligations.SplitSealsALegalCount
  intro s hw
  obtain ⟨hent, hcs⟩ := sizes_seal hw
  exact ⟨exec_split_legal ((legalCount_iff _).mpr hw), hent, hcs, fun k => csValue_bit rfl, fun i => csValue_high _,
    fun n m => getMsbD_entropyByte⟩

theorem csValue_unsealed {b : Block} (hsd : b.sd = false) : csValue b = 0#8 := by simp [csValue, hsd]

theorem expCs_uncompared {b : Block} (hcd : b.cd = false) : expCs b = 0#8 := by simp [expCs, hcd]

theorem csbitsWord_eq_zero {b : Block} (hsd : b.sd = false) (hcd : b.cd = false) : csbitsWord b = 0#32 := by
  rw [csbitsWord, csValue_unsealed hsd, expCs_uncompared hcd]
  rfl

/-- Settles O17: SPLIT raises COUNT (`exec_split_illegal`), and every value of the split reads 0 while SD = 0. -/
theorem splitOnIllegalCountReportsCount : Obligations.SplitOnIllegalCountReportsCount := by
  unfold Obligations.SplitOnIllegalCountReportsCount
  intro s hw
  have hl : legalCount s.blk.w = false := Bool.eq_false_iff.mpr fun h => hw ((legalCount_iff _).mp h)
  exact ⟨exec_split_illegal hl, fun hsd hcd => ⟨hsd, paramsWord_unsealed hsd, csbitsWord_eq_zero hsd hcd, fun j hj =>
    entWord_eq_zero hj ((entV_unsealed hsd).trans_le (Nat.zero_le _))⟩⟩

theorem seal_of_sealed {b : Block} (hsd : b.sd = true) : b.seal = b := by
  cases b
  cases hsd
  rfl

/-- Settles O18: SPLIT seals a block that is sealed already. -/
theorem repeatedSplitChangesNothing : Obligations.RepeatedSplitChangesNothing := by
  unfold Obligations.RepeatedSplitChangesNothing
  intro s hsd hw
  rw [exec_split_legal ((legalCount_iff _).mpr hw), seal_of_sealed hsd, State.setBlk_self]

end Sys2Proof.Proofs.Extractor

/-! ### The comparator (43_comparator.md) -/

namespace Sys2Proof.Proofs.Comparator

open Sys2Proof.Machine Sys2Proof.Proofs.BlockChanges Sys2Proof.Proofs.Commands Sys2Proof.Proofs.Loading
  Sys2Proof.Proofs.HostAccess Sys2Proof.Proofs.SourceVerify Sys2Proof.Proofs.PendingRun Sys2Proof.Proofs.Extractor

/-! The law of the comparator, in numbers (R141) -/

/-- MATCH after a comparison is the equality of two numbers (R31). -/
theorem matchV_iff_toNat {b : Block} (hcd : b.cd = true) :
    matchV b = true ↔ (expCs b).toNat = (csValue b).toNat := by
  rw [matchV, hcd, Bool.true_and, beq_iff_eq, BitVec.toNat_inj]

/-- DIG[0] holds the first 32 digest bits (R88). -/
theorem digestWord_zero_toNat (d : Digest) : (digestWord d 0).toNat = d.toNat >>> 224 := by
  have hd : d.toNat < 2 ^ 256 := d.isLt
  rw [digestWord, BitVec.extractLsb'_toNat, Nat.mul_zero, Nat.sub_zero, Nat.shiftRight_eq_div_pow]
  exact Nat.mod_eq_of_lt (by omega)

/-- EXPCS of a compared digest is the number of its first CSv bits (R137, R141). -/
theorem expCs_judged_toNat (b : Block) (d : Digest) :
    (expCs (judged b d)).toNat = d.toNat / 2 ^ (256 - csV b) := by
  have hcs := csV_le b
  have hplace : 224 + (32 - csV b) = 256 - csV b := by omega
  rw [expCs_toNat (judged_cd b d), judged_dig_zero, csV_judged, digestWord_zero_toNat, ← Nat.shiftRight_add, hplace,
    Nat.shiftRight_eq_div_pow]

@[simp] theorem csValue_judged (b : Block) (d : Digest) : csValue (judged b d) = csValue b := rfl

/-- MATCH on a sealed legal phrase compares the first CS digest bits with the last index modulo 2^CS. -/
theorem matchV_judged_sealed_iff {is : List WordIndex} {c : Nat} (hc : LegalPhrase is c) (hne : is ≠ [])
    (d : Digest) :
    matchV (judged (loaded is).seal d) = true ↔ d.toNat / 2 ^ (256 - c) = (is.getLast hne).toNat % 2 ^ c := by
  rw [matchV_iff_toNat (judged_cd _ d), expCs_judged_toNat, csValue_judged, csV_sealed hc, csValue_sealed hc hne]

/-- LOAD of a legal phrase, SPLIT, SETDIG and COMPARE take any block to the judged one. -/
theorem writesTake_load_split_judge {is : List WordIndex} {c : Nat} (hc : LegalPhrase is c) (d : Digest)
    (b : Block) :
    WritesTake ((AsmLine.load is).expand ++ (AsmLine.command .split).expand ++ (AsmLine.setDig d).expand
      ++ (AsmLine.command .compare).expand) b (judged (loaded is).seal d) := by
  have ⟨_, h8, hlen⟩ := hc
  rw [List.append_assoc _ (AsmLine.setDig d).expand]
  exact ((writesTake_load (by omega) b).append (writesTake_split (legalCount_loaded hc))).append
    (writesTake_judge (Block.seal_sd _) d)

/-- Settles O47: the n + 11 requests leave the judged block (`writesTake_load_split_judge`), whose EXPCS and CSV are the
two numbers (`matchV_judged_sealed_iff`). -/
theorem comparatorLaw : Obligations.ComparatorLaw := by
  unfold Obligations.ComparatorLaw
  intro s is d rest hne hrst hlegal hp
  obtain ⟨c, hc⟩ := exists_legalPhrase hlegal
  have ⟨_, _, hlen⟩ := hc
  have hthird : is.length / 3 = c := by omega
  obtain ⟨t, hrun, hrest, -, hblk⟩ :=
    run_of_writesTake (writesTake_load_split_judge hc d s.blk) (ready_self hrst) hp
  refine ⟨t, by simpa [AsmLine.expand] using hrun, hrest, ?_⟩
  rw [hblk, hthird]
  exact ⟨judged_cd _ d, matchV_judged_sealed_iff hc hne d⟩

/-! One COMPARE -/

section Digest

variable {b : Block} {d : Vector Word 8} (h : ∀ k, k < csV b → d[0].getLsbD (31 - k) = b.dig[0].getLsbD (31 - k))

include h

/-- Of the digest, EXPCS shows the first CSv bits alone (R138). -/
theorem expCs_withDig : expCs { b with dig := d } = expCs b := by
  rcases Bool.eq_false_or_eq_true b.cd with hcd | hcd
  · refine BitVec.eq_of_getLsbD_eq fun i _ => ?_
    by_cases hi : i < csV b
    · have hk : csV b - 1 - i < csV b := by omega
      have hback : csV b - 1 - (csV b - 1 - i) = i := by omega
      have hnew : (expCs { b with dig := d }).getLsbD (csV b - 1 - (csV b - 1 - i))
          = d[0].getLsbD (31 - (csV b - 1 - i)) := expCs_bit (by exact hcd) hk
      have hold := expCs_bit hcd hk
      rw [hback] at hnew hold
      rw [hnew, h _ hk, hold]
    · rw [expCs_high b (Nat.not_lt.mp hi)]
      exact expCs_high _ (Nat.not_lt.mp hi)
  · rw [expCs_uncompared hcd]
    exact expCs_uncompared hcd

theorem matchV_withDig : matchV { b with dig := d } = matchV b :=
  congrArg (fun e => b.cd && (e == csValue b)) (expCs_withDig h)

/-- Digest bits from CSv on show in DIGEST_W alone (R138). -/
theorem readReg_withDig {r : Reg} (hr : ∀ j, r ≠ .digestW j) : readReg { b with dig := d } r = readReg b r := by
  cases r with
  | cmd | wcount | params | entW j | accW j => rfl
  | status => simp only [readReg, statusWord, matchV_withDig h]
  | csbits =>
    simp only [readReg, csbitsWord, expCs_withDig h]
    rfl
  | digestW j => exact absurd rfl (hr j)

end Digest

/-- Settles O19: COMPARE answers `Block.markCompared` (`exec_compare_sealed`), MATCH is read bit for bit (`matchV_iff`), and
the later digest bits reach neither EXPCS nor what is read from it (`expCs_withDig`). -/
theorem compareMatchesBitForBit : Obligations.CompareMatchesBitForBit :=
  ⟨fun _ hsd => exec_compare_sealed hsd, fun _ hcd => matchV_iff hcd,
    fun _ _ h => ⟨matchV_withDig h, fun _ hr => readReg_withDig h hr⟩⟩

theorem markCompared_of_compared {b : Block} (hcd : b.cd = true) : b.markCompared = b := by
  cases b
  cases hcd
  rfl

/-- The step that takes COMPARE on a sealed block (R59, R136). -/
theorem step_compare_sealed {s : State} (hrst : s.rst = false) (hsd : s.blk.sd = true) :
    step (s.offer (cmdWrite (encode .compare))) = .next ((s.respond .ok).setBlk s.blk.markCompared) := by
  rw [step_offer, takeEvent_cmdWrite hrst, execute_command (decode_encode .compare)]
  exact exec_compare_sealed (s := s.respond .ok) hsd

/-- Settles O21: COMPARE sets a flag that is set already; a digest write clears it and keeps SD, so the COMPARE after it is
one on a sealed block again. -/
theorem repeatedCompareChangesNothing : Obligations.RepeatedCompareChangesNothing := by
  unfold Obligations.RepeatedCompareChangesNothing
  refine ⟨fun s hcd hsd => ?_, fun s j v hrst hsd => ?_⟩
  · rw [exec_compare_sealed hsd, markCompared_of_compared hcd, State.setBlk_self]
  · exact ⟨(s.respond .ok).setBlk (s.blk.writeDigest j v), _, step_digestWrite hrst j v, rfl,
      step_compare_sealed (by exact hrst) (by exact hsd), rfl⟩

/-- Settles O20: COMPARE raises SEQ (`exec_compare_open`). -/
theorem compareBeforeSplitIsRefused : Obligations.CompareBeforeSplitIsRefused :=
  fun _ hsd => exec_compare_open hsd

end Sys2Proof.Proofs.Comparator

/-! ### The command errors and the bus error (60_exceptions.md R150 to R156) -/

namespace Sys2Proof.Proofs.Exceptions

open Sys2Proof.Machine Sys2Proof.Proofs.BlockChanges Sys2Proof.Proofs.Commands Sys2Proof.Proofs.Bus
  Sys2Proof.Proofs.Encoding

/-- The write to CMD is answered OK before the command runs, and no command error takes the answer back (R59). -/
theorem response_of_cmdWrite {s t : State} {v : Word} (hrst : s.rst = false)
    (h : step (s.offer (cmdWrite v)) = .next t) : t.response = some .ok := by
  rw [step_offer, takeEvent_cmdWrite hrst] at h
  exact response_of_execute h

/-- Settles O24: the answer is `response_of_cmdWrite`; what each error writes is `Block.raise` at that error. -/
theorem commandErrorSetsItsFlagAndCode : Obligations.CommandErrorSetsItsFlagAndCode :=
  ⟨fun _ _ _ hrst h => response_of_cmdWrite hrst h, fun _ => ⟨rfl, rfl, rfl, rfl⟩⟩

/-- The write of a command's own word runs the command, with the OK response given (R59, R80). -/
theorem step_cmdWrite_encode {s : State} (hrst : s.rst = false) (i : Instr) :
    step (s.offer (cmdWrite (encode i))) = exec i (s.respond .ok) := by
  rw [step_offer, takeEvent_cmdWrite hrst, execute_command (decode_encode i)]

/-- A write of another size than 4 is refused, whatever its offset and value (R58 (a)). -/
theorem step_write_size {s : State} (hrst : s.rst = false) {size : Nat} (h : size ≠ 4) (off : Offset) (v : Word) :
    step (s.offer (.access (.write off size v))) = .next (s.respond .err) := by
  rw [step_offer, takeEvent_write hrst, memWrite_size h]

/-- Settles O25, one clause per level of R153: the size is checked before the word is looked at (`step_write_size`), the
decoder refuses the word with its reserved bit in every state (`step_cmdWrite_illegal`), and PUSH meets its check of SD
before that of the count, so `exec_push_sealed` asks nothing of W. -/
theorem errorPriority : Obligations.ErrorPriority := by
  unfold Obligations.ErrorPriority
  refine ⟨fun s size v hrst hsize => step_write_size hrst hsize _ v, fun s hrst => ?_, fun s idx hrst hsd _ => ?_⟩
  · have hreserved : decode 0x20000800#32 = .illegal .reservedBits := by decide
    exact step_cmdWrite_illegal hrst ⟨_, hreserved⟩
  · rw [step_cmdWrite_encode hrst]
    exact exec_push_sealed (s := s.respond .ok) idx hsd

end Sys2Proof.Proofs.Exceptions

/-! ### Reset and totality (70_reset_and_hazards.md R180, R187) -/

namespace Sys2Proof.Proofs.Totality

open Sys2Proof.Machine Sys2Proof.Proofs.Writers

/-- An idle step and the two reset events answer a next state, so a refusal could only come from an access. -/
theorem step_not_refused (s : State) (ρ : Refusal) : step s ≠ .refused ρ := by
  cases hp : s.pending with
  | nil => simp [step_idle hp]
  | cons e rest =>
    rw [step_takes hp]
    cases e with
    | access r => exact serve_stop.1 ρ
    | resetAssert | resetRelease => exact nofun

/-- The one fault needs a count above 24 (`step_fault`), and there is no refusal. -/
theorem step_answers {s : State} (hw : s.blk.w.toNat ≤ 24) : ∃ t, step s = .next t := by
  cases h : step s with
  | next t => exact ⟨t, rfl⟩
  | fault f => exact absurd (step_fault h).2.1 (by omega)
  | refused ρ => exact absurd h (step_not_refused s ρ)

/-- An access is answered, and only the answer OK of an accepted write comes with a change of the block (R187). -/
theorem response_of_accessEffect {r : Request} {s t : State} (h : AccessEffect r s t) :
    ∃ a, t.response = some a ∧ (a ≠ .ok → t.blk = s.blk) := by
  rcases h with ⟨hb, ha | ⟨d, ha⟩⟩ | ⟨-, ha, -⟩
  · exact ⟨.err, ha, fun _ => hb⟩
  · exact ⟨.okData d, ha, fun _ => hb⟩
  · exact ⟨.ok, ha, fun hne => absurd rfl hne⟩

/-- Settles O7: no step stops at such a count (`step_answers`), and what an access leaves is read off its effect
(`serve_cases`). -/
theorem everyStepAnswers : Obligations.EveryStepAnswers := by
  unfold Obligations.EveryStepAnswers
  refine ⟨fun _ hw => step_answers hw, fun s r hw => ?_, step_not_refused⟩
  obtain ⟨t, ht⟩ := step_answers (s := s.offer (.access r)) hw
  have hserve : serve r s = .next t := ht
  obtain ⟨-, hpending, heffect⟩ := serve_cases hserve
  obtain ⟨a, ha, hblk⟩ := response_of_accessEffect heffect
  exact ⟨t, a, ht, ha, hpending, fun herr => hblk (by simp [herr]), fun d hdata => hblk (by simp [hdata])⟩

/-- Settles O12: an access in reset is answered ERR before it is looked at (`takeEvent_inReset`), and the release lowers
the level alone. -/
theorem accessInResetGetsErr : Obligations.AccessInResetGetsErr :=
  ⟨fun _ r hrst => takeEvent_inReset hrst r, fun _ => rfl⟩

end Sys2Proof.Proofs.Totality
